-- ==== Sys2Proof/Word.lean ====
section
/-! DEFINITION. The machine's word types. A byte is an unsigned 8-bit value (00_scope.md section 7). -/

namespace Sys2Proof

/-- A byte of BUF, a key register, a command word. -/
abbrev Byte := BitVec 8

/-- The width of LEN, CHG and IDX: AW = 32 bits (R5, D3; log 7). -/
abbrev Word := BitVec 32

/-- The number of a register of the host's port: 8 bits (R17). -/
abbrev RegNum := BitVec 8

end Sys2Proof
end

