-- ==== Sys2Proof/Syntax.lean ====
section
/-! DEFINITION. The commands: one constructor per row of spec/opcode_table.json. -/

namespace Sys2Proof

/-- The four commands of R47. All operands are implicit (R46), so no constructor has a field. -/
inductive Instr where
  /-- `NOP`, word 0x00 (R83). -/
  | nop
  /-- `KEXP`, word 0x01: expand the key from the seed in BUF into K (R57). -/
  | kexp
  /-- `XFRM`, word 0x02: transform BUF from 0x800 with the key in K (R66). -/
  | xfrm
  /-- `RUN`, word 0x03: KEXP, then, if it did not fault, XFRM (R79). -/
  | run
deriving DecidableEq, Repr

end Sys2Proof
end

