-- ==== Sys2Proof/WellFormed.lean ====
section
/-! DEFINITION. The checks of form: of a command word (R44) and of a command. -/

namespace Sys2Proof

/-- A command word is well formed when bits 7:2 (`RSV`) are zero (R44, R48). -/
def wordWf (w : Byte) : Bool := w &&& 0xFC#8 == 0#8

/-- Every command is well formed: it has no operand that could be out of range (R45, R46). -/
def Instr.wf (i : Instr) : Bool :=
  match i with
  | .nop => true
  | .kexp => true
  | .xfrm => true
  | .run => true

end Sys2Proof
end

