-- ==== Sys2Proof/Decode.lean ====
section
/-! DEFINITION. Decoding of command words (R44 to R50), total and rejecting by name, and the encoder. -/

namespace Sys2Proof

/-- Why bytes are no command. -/
inductive DecodeError where
  /-- No byte is there. -/
  | noWord
  /-- A word with any of bits 7:2 set, 0x04 to 0xFF (R48). -/
  | reservedWord (w : Byte)
deriving DecidableEq, Repr

/-- The field `RSV`, bits 7:2 of a command word (R44). -/
def rsvField (w : Byte) : BitVec 6 := w.extractLsb 7 2

/-- The field `XFM`, bit 1: the Selective XOR Transform is to run (R44, R45). -/
def xfmField (w : Byte) : Bool := w.getLsbD 1

/-- The field `EXP`, bit 0: the Key Expander is to run (R44, R45). -/
def expField (w : Byte) : Bool := w.getLsbD 0

/-- Bits 1:0 of a command word, what `CMDR` latches (R16, R86 line 5). -/
def cmdrField (w : Byte) : BitVec 2 := w.extractLsb 1 0

/-- The opcode map: RSV selects the defined space, the two low bits the row (R47). -/
def decodeWord (w : Byte) : Except DecodeError Instr :=
  if rsvField w != 0#6 then .error (.reservedWord w)
  else match xfmField w, expField w with
    | false, false => .ok .nop
    | false, true => .ok .kexp
    | true, false => .ok .xfrm
    | true, true => .ok .run

/-- Reads one command from bytes; every command is one byte long (R44). -/
def decode (bytes : List Byte) : Except DecodeError (Instr × List Byte) :=
  match bytes with
  | [] => .error .noWord
  | w :: rest =>
    match decodeWord w with
    | .ok i => .ok (i, rest)
    | .error e => .error e

/-- The command word of format C from its two bits, `RSV` = 0 (R44). -/
def wordOfFields (xfm exp : Bool) : Byte := 0#6 ++ BitVec.ofBool xfm ++ BitVec.ofBool exp

/-- The word of a command, from the columns EXP and XFM of R47. -/
def encodeWord (i : Instr) : Byte :=
  match i with
  | .nop => wordOfFields false false
  | .kexp => wordOfFields false true
  | .xfrm => wordOfFields true false
  | .run => wordOfFields true true

/-- The bytes of a command. -/
def encode (i : Instr) : List Byte := [encodeWord i]

/-- The command the decoder reads from a word of `nbits` bits numbered as spec/opcode_table.json numbers them. A command is one
byte, so the byte laid out is bits 7:0. -/
def decodeTableWord (nbits w : Nat) : Option Instr :=
  match decode [BitVec.ofNat 8 (w % 2 ^ nbits)] with
  | .ok (i, _) => some i
  | .error _ => none

/-! Every constructor's decoding, from the binary column of R47. -/

theorem decode_nop_word : decodeWord 0b00000000#8 = .ok .nop := by decide
theorem decode_kexp_word : decodeWord 0b00000001#8 = .ok .kexp := by decide
theorem decode_xfrm_word : decodeWord 0b00000010#8 = .ok .xfrm := by decide
theorem decode_run_word : decodeWord 0b00000011#8 = .ok .run := by decide

end Sys2Proof
end

