-- ==== Sys2Proof/Config.lean ====
section
/-! DEFINITION. The constants of R4, the platform's open parameters and the one free value of the spec. -/

namespace Sys2Proof.Config

/-- SEED_OFF: offset in the image of the first seed byte (R4). -/
@[simp] abbrev seedOff : Nat := 0x400

/-- SEED_LEN: number of seed bytes (R4). -/
@[simp] abbrev seedLen : Nat := 16

/-- MIN_LEN = SEED_OFF + SEED_LEN: smallest image length the Key Expander accepts (R4). -/
@[simp] abbrev minLen : Nat := 0x410

/-- KEY_LEN: bytes in the expanded key (R4). -/
@[simp] abbrev keyLen : Nat := 128

/-- SEG_LEN: bytes in a key segment (R4). -/
@[simp] abbrev segLen : Nat := 16

/-- HALF: offsets below it in a segment rotate left, the others right (R4). -/
@[simp] abbrev half : Nat := 8

/-- SKIP: the first index the transform touches (R4). -/
@[simp] abbrev skip : Nat := 0x800

/-- The size of the buffer space BUF, offsets 0 to 2^AW - 1 (R25). -/
@[simp] abbrev bufSize : Nat := 2 ^ 32

/-- The content of BUF at an offset that neither the host nor the block has written. R112: "unspecified, and a model must
not assume any value for it". A free value: one content per offset, since BUF is ordinary memory (R32). Log 3. -/
opaque bufPowerUp : Nat → Byte

/-- HOST_BUS: how a register number becomes a bus address. No rule reads it (R17, U16). -/
opaque hostBus : RegNum → Nat

/-- BUF_BASE: where BUF sits in a platform's memory. No rule reads it (R25, U16). -/
opaque bufBase : Nat

end Sys2Proof.Config
end

