-- ==== Sys2Proof/Machine/State.lean ====
section
/-! DEFINITION. The state of the machine as plain data (10_state.md), the reasons a step can stop, and the state after reset. -/

namespace Sys2Proof.Machine

/-- The sequencer's phase (R14). -/
inductive Phase where
  /-- No command in progress. -/
  | idle
  /-- Key expansion in progress. -/
  | expand
  /-- Transform in progress. -/
  | xor
deriving DecidableEq, Repr

/-- One turn of the schedule: who moves next and, for the host, with which access (R85, R92; log 1). -/
inductive Turn where
  /-- The block takes its next micro-step, if it has one (R85). -/
  | block
  /-- The host presents the word `w` and waits for its end, as one transition (R51 `CMD w`, R84; log 2). -/
  | command (w : Byte)
  /-- `RegRead(n)` (R17). -/
  | regRead (n : RegNum)
  /-- `RegWrite(n, v)` (R17); `regWrite 0 w` presents the word `w` and returns at once (R18, R86). -/
  | regWrite (n : RegNum) (v : Nat)
  /-- The host reads the byte at BUF offset `a` (R51). -/
  | peek (a : Nat)
  /-- The host writes the byte `v` at BUF offset `a` (R51). -/
  | poke (a : Nat) (v : Byte)
  /-- The host polls `STATUS` until `BUSY` is 0 (R51). -/
  | wait
  /-- The reset event (R111). -/
  | reset
deriving DecidableEq, Repr

/-- One event of the block's access history (R33, R37; log 5). -/
inductive Access where
  /-- `MemRead(a, 1)` returned `v` (R29). -/
  | memRead (a : Nat) (v : Byte)
  /-- `MemWrite(a, 1, v)` (R29). -/
  | memWrite (a : Nat) (v : Byte)
  /-- `K[n] <- v` by the block (R12, R62). -/
  | keyWrite (n : Nat) (v : Byte)
deriving DecidableEq, Repr

/-- The written bytes of BUF: (offset, byte), offsets strictly rising (log 3). -/
abbrev Memory := List Host.Cell

/-- Why a step stops with a fault. The block's own two faults are no stop: they are recorded in `err` (R99). -/
inductive Fault where
  /-- A busy sequencer whose `IDX` lies outside the range R87 or R88 gives it; no run reaches it. Raised by `blockStep`. Safe
  (log 8). -/
  | sequencerOutOfRange
deriving DecidableEq, Repr

/-- Why a step has no meaning: the host accesses R28 tells a model to refuse, and instructions without a meaning. -/
inductive Refusal where
  /-- An instruction the model has no meaning for. Raised by no arm of `exec`. Safe. -/
  | notModelled (mnemonic : String)
  /-- Any host access but a read of `STATUS` while `BUSY = 1` (R28, R117). Raised by `present`, the register port and the BUF
  port. Safe (log 9). -/
  | accessWhileBusy
  /-- An access to register numbers 0x04 to 0x7F (R28). Raised by the register port. Safe (log 9). -/
  | reservedRegister
  /-- A read of `CMD` (R28). Raised by the register port. Safe (log 9). -/
  | readOfCmd
  /-- A write of `STATUS` (R28). Raised by the register port. Safe (log 9). -/
  | writeOfStatus
  /-- A write of `CHG` (R28). Raised by the register port. Safe (log 9). -/
  | writeOfChg
  /-- A value that does not fit the register's width (R28). Raised by the register port. Safe (log 9). -/
  | valueTooWide
  /-- A host access to a BUF offset at or above 2^32, which no table permits (R25, R28, R92). Raised by `hostPeek` and `hostPoke`.
  Safe (log 4). -/
  | bufOffsetOutsideSpace
deriving DecidableEq, Repr

/-- The complete state (R9) and, below it, the model's own schedule and histories (log 1, log 5). -/
structure State where
  /-- `K[0..127]` (R10). -/
  key : Vector Byte 128
  /-- `LEN` (R23). -/
  len : Word
  /-- `CHG` (R24). -/
  chg : Word
  /-- `PHASE` (R14); `BUSY` is computed from it (R20). -/
  phase : Phase
  /-- `IDX` (R15). -/
  idx : Word
  /-- `CMDR` (R16). -/
  cmdr : BitVec 2
  /-- `STATUS.DONE` (R21). -/
  done : Bool
  /-- `STATUS.ERR` (R22). -/
  err : BitVec 4
  /-- `BUF`, memory outside the block (R25). -/
  buf : Memory
  /-- Model's own: the turns to come, next first (log 1). -/
  script : List Turn
  /-- Model's own: the values reads have returned to the host, newest first (log 5). -/
  seen : List Nat
  /-- Model's own: the block's accesses, newest first (log 5). -/
  trace : List Access
deriving DecidableEq, Repr

/-- The machine right after reset: the values of R27, nothing written to BUF, no turn pending (log 3, log 6). -/
def State.reset : State where
  key := Vector.replicate 128 0#8
  len := 0#32
  chg := 0#32
  phase := .idle
  idx := 0#32
  cmdr := 0#2
  done := false
  err := 0#4
  buf := []
  script := []
  seen := []
  trace := []

/-- The three outcomes of a step of this machine. -/
abbrev Result := Host.Outcome State Fault Refusal

end Sys2Proof.Machine
end

