-- ==== Sys2Proof/Machine/Flags.lean ====
section
/-! DEFINITION. The status register (R19 to R22). No arithmetic flag exists (R53, R54, R64). -/

namespace Sys2Proof.Machine

/-- `BUSY = (PHASE != IDLE)` (R20). -/
def busy (s : State) : Bool := s.phase != .idle

/-- `STATUS`: bits 7:4 `ERR`, bits 3:2 zero, bit 1 `DONE`, bit 0 `BUSY` (R19). -/
def statusWord (s : State) : Byte :=
  s.err ++ 0#2 ++ BitVec.ofBool s.done ++ BitVec.ofBool (busy s)

/-- `ERR` code 1, INSUFFICIENT_LENGTH (R22, R94). -/
abbrev insufficientLength : BitVec 4 := 1#4

/-- `ERR` code 2, ILLEGAL_COMMAND (R22, R94). -/
abbrev illegalCommand : BitVec 4 := 2#4

end Sys2Proof.Machine
end

