-- ==== Sys2Proof/Machine/Ops.lean ====
section
/-! DEFINITION. The named operations over registers, BUF and the sequencer that every meaning is built from. -/

namespace Sys2Proof.Machine

/-! Registers -/

/-- `K[n mod 128]`. Every index a rule forms is below 128 or taken modulo 128 (R12, R67; log 11). -/
def State.keyAt (s : State) (n : Nat) : Byte := s.key[n % 128]'(Nat.mod_lt _ (by decide))

/-- `K[n] <- v`, n below 128 (R12; log 11). -/
def State.setKey (n : Nat) (v : Byte) (s : State) : State :=
  { s with key := s.key.set (n % 128) v (Nat.mod_lt _ (by decide)) }

/-- `LEN <- v` (R23). -/
def State.setLen (v : Word) (s : State) : State := { s with len := v }

/-- `CHG <- v` (R24). -/
def State.setChg (v : Word) (s : State) : State := { s with chg := v }

/-- `PHASE <- p` (R14). -/
def State.setPhase (p : Phase) (s : State) : State := { s with phase := p }

/-- `IDX <- v` (R15). -/
def State.setIdx (v : Word) (s : State) : State := { s with idx := v }

/-- `CMDR <- v` (R16). -/
def State.setCmdr (v : BitVec 2) (s : State) : State := { s with cmdr := v }

/-- `DONE <- b` (R21). -/
def State.setDone (b : Bool) (s : State) : State := { s with done := b }

/-- `ERR <- e` (R22). -/
def State.setErr (e : BitVec 4) (s : State) : State := { s with err := e }

/-- The written bytes of BUF become `m`. -/
def State.setBuf (m : Memory) (s : State) : State := { s with buf := m }

/-- The turns to come are `ts` (log 1). -/
def State.setScript (ts : List Turn) (s : State) : State := { s with script := ts }

/-- A read has returned `v` to the host (log 5). -/
def State.pushSeen (v : Nat) (s : State) : State := { s with seen := v :: s.seen }

/-- The block has made the access `e` (log 5). -/
def State.pushTrace (e : Access) (s : State) : State := { s with trace := e :: s.trace }

/-! BUF (R25, R29; log 3) -/

/-- The byte stored at `a`, none where nothing has been written. -/
def Memory.read? (m : Memory) (a : Nat) : Option Byte :=
  match m with
  | [] => none
  | c :: rest => if c.1 = a then some c.2 else Memory.read? rest a

/-- The memory with `v` at `a`, kept in rising order of offsets. -/
def Memory.write (m : Memory) (a : Nat) (v : Byte) : Memory :=
  match m with
  | [] => [(a, v)]
  | c :: rest =>
    if c.1 < a then c :: Memory.write rest a v
    else if c.1 = a then (a, v) :: rest
    else (a, v) :: c :: rest

/-- The canonical form: offsets strictly rising, each inside the buffer space. An unlisted offset holds no entry at all, so
no entry repeats what an unlisted offset holds (log 3). -/
def Memory.wf (m : Memory) : Bool :=
  match m with
  | [] => true
  | c :: rest => decide (c.1 < Config.bufSize) && rest.all (fun d => decide (c.1 < d.1)) && Memory.wf rest

/-- The byte at BUF offset `a`: the last value written there, or the free value where nothing has been (R32, R112; log 3). -/
def State.bufByte (s : State) (a : Nat) : Byte := (s.buf.read? a).getD (Config.bufPowerUp a)

/-- `MemRead(a, 1)`'s effect: nothing but its event; its value is `bufByte a` (R29, R32). -/
def State.noteRead (a : Nat) (s : State) : State := s.pushTrace (.memRead a (s.bufByte a))

/-- `MemWrite(a, 1, v)` (R29). -/
def State.memWrite (a : Nat) (v : Byte) (s : State) : State :=
  (s.setBuf (s.buf.write a v)).pushTrace (.memWrite a v)

/-- `K[n] <- v` by the block, with its event (R12, R62). -/
def State.writeKey (n : Nat) (v : Byte) (s : State) : State :=
  (s.setKey n v).pushTrace (.keyWrite n v)

/-! Faults and reset (R99, R103, R111) -/

/-- Fault entry: `DONE <- 0`, `ERR <- c`, and nothing else; PHASE stays IDLE (R99). -/
def raiseFault (c : BitVec 4) (s : State) : State := (s.setDone false).setErr c

/-- Reset, the only way out of a recorded fault (R103): every piece of block state takes its value of R27, BUF is not touched
(R111, R112). The host's schedule and the histories are no block state (log 5). -/
def resetBlock (s : State) : State :=
  { State.reset with buf := s.buf, script := s.script, seen := s.seen, trace := s.trace }

/-! Presenting a command word -/

/-- The length check of the Key Expander fails: `LEN < 0x410`, unsigned (R58). -/
def tooShort (s : State) : Bool := decide (s.len.toNat < Config.minLen)

/-- A word is presented: refused while busy (R28), ignored while a fault is recorded (R102), else `DONE <- 0` and the word's own
effect `act` (R84, R86 lines 1 and 2). -/
def present (act : State → State) (s : State) : Result :=
  if busy s then .refused .accessWhileBusy
  else if s.err != 0#4 then .next s
  else .next (act (s.setDone false))

/-- The effect `act` of a command with `EXP = 1`, behind the length check (R57, R79, R86 line 4). -/
def withLengthCheck (act : State → State) (s : State) : State :=
  if tooShort s then raiseFault insufficientLength s else act s

/-- Phase XOR starts: `PHASE <- XOR; IDX <- 0x800; CHG <- 0` (R86 line 7, R87). -/
def enterXor (s : State) : State := ((s.setPhase .xor).setIdx 0x800#32).setChg 0#32

/-- A busy phase ends: `PHASE <- IDLE; DONE <- 1` (R87, R88). -/
def complete (s : State) : State := (s.setPhase .idle).setDone true

end Sys2Proof.Machine
end

