-- ==== Sys2Proof/Machine/Operands.lean ====
section
/-! DEFINITION. The register space of the host's port (R17): what a register number names and how wide it is. Commands have
no operand field (R45, R46). -/

namespace Sys2Proof.Machine

/-- What a register number names (R17). -/
inductive RegName where
  | cmd
  | status
  | len
  | chg
  | reserved
  | key (n : Nat)
deriving DecidableEq, Repr

/-- The register map of R17. -/
def regOf (n : RegNum) : RegName :=
  if n = 0x00#8 then .cmd
  else if n = 0x01#8 then .status
  else if n = 0x02#8 then .len
  else if n = 0x03#8 then .chg
  else if n.toNat < 0x80 then .reserved
  else .key (n.toNat - 0x80)

/-- The width in bits of each register (R17). -/
def regWidth (r : RegName) : Nat :=
  match r with
  | .cmd => 8
  | .status => 8
  | .len => 32
  | .chg => 32
  | .reserved => 0
  | .key _ => 8

/-- "the value fits the register's width" (R28). -/
def fits (r : RegName) (v : Nat) : Bool := decide (v < 2 ^ regWidth r)

end Sys2Proof.Machine
end

