-- ==== Sys2Proof/Machine/KeyExpander.lean ====
section
/-! DEFINITION. The Key Expander and the command KEXP (40_key_expander.md). -/

namespace Sys2Proof.Machine

/-- Rotation of a byte left by one bit (R53). -/
def rol8 (v : Byte) : Byte := (v <<< 1) ||| (v >>> 7)

/-- Rotation of a byte right by one bit (R54). -/
def ror8 (v : Byte) : Byte := (v >>> 1) ||| ((v &&& 1#8) <<< 7)

/-- The seed: the 16 bytes `BUF[0x400 .. 0x40F]` (R30, R46). -/
def seedOf (s : State) : Vector Byte 16 := Vector.ofFn fun n => s.bufByte (Config.seedOff + n.val)

/-- Byte `o` of segment `g` of the expanded key: segment 0 is the seed, each later segment is made from the one before (R56). -/
def expandByte (seed : Vector Byte 16) (g o : Nat) : Byte :=
  match g with
  | 0 => seed[o % 16]'(Nat.mod_lt _ (by decide))
  | g + 1 => if o < Config.half then rol8 (expandByte seed g o) else ror8 (expandByte seed g o)

/-- `expand(s)`: the 128-byte key of a seed (R56). -/
def expand (seed : Vector Byte 16) : Vector Byte 128 :=
  Vector.ofFn fun n => expandByte seed (n.val / 16) (n.val % 16)

/-- The body of the expansion at index `n`: the loops of R57, one EXPAND step of R87. -/
def expandAt (n : Nat) (s : State) : State :=
  if n < Config.seedLen then
    (s.noteRead (Config.seedOff + n)).writeKey n (s.bufByte (Config.seedOff + n))
  else if n % Config.segLen < Config.half then
    s.writeKey n (rol8 (s.keyAt (n - 16)))
  else
    s.writeKey n (ror8 (s.keyAt (n - 16)))

/-- `count` indices in ascending order from `n` (R57, R62). -/
def expandLoop (count n : Nat) (s : State) : State :=
  match count with
  | 0 => s
  | count + 1 => expandLoop count (n + 1) (expandAt n s)

/-- The whole expansion: `K <- expand(BUF[0x400 .. 0x40F])`; IDX ends as 127 (R57, R91). -/
def expandKey (s : State) : State := (expandLoop Config.keyLen 0 s).setIdx 127#32

/-- `KEXP`, word 0x01 (R57), as the transition from presentation to completion (R84). -/
def execKexp (s : State) : Result :=
  present (withLengthCheck fun s => (expandKey (s.setCmdr 0b01#2)).setDone true) s

end Sys2Proof.Machine
end

