-- ==== Sys2Proof/Machine/SelectiveXor.lean ====
section
/-! DEFINITION. The Selective XOR Transform and the command XFRM (41_selective_xor.md). -/

namespace Sys2Proof.Machine

/-- `v in SENT`: the byte is 0x00 or 0xFF (R63). -/
def isSentinel (v : Byte) : Bool := v == 0x00#8 || v == 0xFF#8

/-- `xf(b, k)`: the byte the transform leaves where it found `b` under key byte `k` (R64). -/
def xf (b k : Byte) : Byte :=
  if isSentinel b then b
  else if isSentinel (b ^^^ k) then b
  else b ^^^ k

/-- The transform at index `i`: steps 1 to 6 of R65 with the count of R68, one XOR step of R88. -/
def xorAt (i : Nat) (s : State) : State :=
  let cr := s.bufByte i
  let s1 := s.noteRead i
  if isSentinel cr then s1
  else
    let outb := cr ^^^ s.keyAt i
    if isSentinel outb then s1
    else
      let s2 := s1.memWrite i outb
      if outb != cr then s2.setChg (s2.chg + 1#32) else s2

/-- `count` indices in ascending order from `i` (R66). -/
def xorLoop (count i : Nat) (s : State) : State :=
  match count with
  | 0 => s
  | count + 1 => xorLoop count (i + 1) (xorAt i s)

/-- The whole transform: `CHG <- 0`, every index from 0x800 to LEN - 1; IDX ends as max(0x800, LEN) (R66, R91). -/
def transformImage (s : State) : State :=
  (xorLoop (s.len.toNat - Config.skip) Config.skip (s.setChg 0#32)).setIdx
    (BitVec.ofNat 32 (max Config.skip s.len.toNat))

/-- `XFRM`, word 0x02 (R66), as the transition from presentation to completion (R84). No length check (R69). -/
def execXfrm (s : State) : Result :=
  present (fun s => (transformImage (s.setCmdr 0b10#2)).setDone true) s

end Sys2Proof.Machine
end

