-- ==== Sys2Proof/Machine/Pipeline.lean ====
section
/-! DEFINITION. The commands RUN and NOP, and a reserved word (42_pipeline.md, R48). -/

namespace Sys2Proof.Machine

/-- `RUN`, word 0x03: expand the key, then transform (R79). -/
def execRun (s : State) : Result :=
  present (withLengthCheck fun s => (transformImage (expandKey (s.setCmdr 0b11#2))).setDone true) s

/-- `NOP`, word 0x00: completes at once (R83; `CMDR` by R86 line 5). -/
def execNop (s : State) : Result :=
  present (fun s => (s.setCmdr 0b00#2).setDone true) s

/-- A reserved word 0x04 to 0xFF: ILLEGAL_COMMAND (R48, R96). -/
def execReserved (s : State) : Result :=
  present (raiseFault illegalCommand) s

end Sys2Proof.Machine
end

