-- ==== Sys2Proof/Machine/Dispatch.lean ====
section
/-! DEFINITION. One arm per command. -/

namespace Sys2Proof.Machine

/-- A whole command, from the presentation of its word to its completion (R84). -/
def exec (i : Instr) (s : State) : Host.Outcome State Fault Refusal :=
  match i with
  | .nop => Sys2Proof.Machine.execNop s
  | .kexp => Sys2Proof.Machine.execKexp s
  | .xfrm => Sys2Proof.Machine.execXfrm s
  | .run => Sys2Proof.Machine.execRun s

end Sys2Proof.Machine
end

