-- ==== Sys2Proof/Machine/Sequencer.lean ====
section
/-! DEFINITION. The sequencer's micro-steps (43_microsteps.md). -/

namespace Sys2Proof.Machine

/-- The accept step: what `RegWrite(0x00, w)` does while PHASE is IDLE, line by line of R86. -/
def acceptWord (w : Byte) (s : State) : State :=
  if s.err != 0#4 then s
  else
    let s1 := s.setDone false
    if rsvField w != 0#6 then raiseFault illegalCommand s1
    else if expField w && tooShort s1 then raiseFault insufficientLength s1
    else
      let s2 := s1.setCmdr (cmdrField w)
      if expField w then (s2.setPhase .expand).setIdx 0#32
      else if xfmField w then enterXor s2
      else s2.setDone true

/-- One EXPAND step (R87). -/
def expandMicro (s : State) : State :=
  let s1 := expandAt s.idx.toNat s
  if s.idx.toNat < 127 then s1.setIdx (s.idx + 1#32)
  else if s.cmdr.getLsbD 1 then enterXor s1
  else complete s1

/-- One XOR step (R88). -/
def xorMicro (s : State) : State :=
  if s.len.toNat ≤ s.idx.toNat then complete s
  else (xorAt s.idx.toNat s).setIdx (s.idx + 1#32)

/-- `IDX` is in the range its phase gives it: 0 to 127 (R87), 0x800 to max(0x800, LEN) (R88). -/
def idxInRange (s : State) : Bool :=
  match s.phase with
  | .idle => true
  | .expand => decide (s.idx.toNat ≤ 127)
  | .xor => decide (Config.skip ≤ s.idx.toNat) && decide (s.idx.toNat ≤ max Config.skip s.len.toNat)

/-- The block's next step: none while idle (R89), else the step of its phase (R87, R88; log 8). -/
def blockStep (s : State) : Result :=
  if idxInRange s then
    match s.phase with
    | .idle => .next s
    | .expand => .next (expandMicro s)
    | .xor => .next (xorMicro s)
  else .fault .sequencerOutOfRange

end Sys2Proof.Machine
end

