-- ==== Sys2Proof/Machine/HostPort.lean ====
section
/-! DEFINITION. The host's steps (R17, R28, R51, R92) and the turn of either agent (R85). -/

namespace Sys2Proof.Machine

/-- The value `RegRead(n)` returns, or why it has none (R17, R28). -/
def readReg (n : RegNum) (s : State) : Except Refusal Nat :=
  if regOf n = .status then .ok (statusWord s).toNat
  else if busy s then .error .accessWhileBusy
  else match regOf n with
    | .cmd => .error .readOfCmd
    | .status => .ok (statusWord s).toNat
    | .len => .ok s.len.toNat
    | .chg => .ok s.chg.toNat
    | .reserved => .error .reservedRegister
    | .key k => .ok (s.keyAt k).toNat

/-- `RegRead(n)`: changes no state (R92); the host has its value. -/
def hostRegRead (n : RegNum) (s : State) : Result :=
  match readReg n s with
  | .ok v => .next (s.pushSeen v)
  | .error r => .refused r

/-- `RegWrite(n, v)` (R17, R18, R28). -/
def hostRegWrite (n : RegNum) (v : Nat) (s : State) : Result :=
  if busy s then .refused .accessWhileBusy
  else match regOf n with
    | .cmd => if fits .cmd v then .next (acceptWord (BitVec.ofNat 8 v) s) else .refused .valueTooWide
    | .status => .refused .writeOfStatus
    | .len => if fits .len v then .next (s.setLen (BitVec.ofNat 32 v)) else .refused .valueTooWide
    | .chg => .refused .writeOfChg
    | .reserved => .refused .reservedRegister
    | .key k => if fits (.key k) v then .next (s.setKey k (BitVec.ofNat 8 v)) else .refused .valueTooWide

/-- The host reads the byte at BUF offset `a` (R25, R28, R51; log 4). -/
def hostPeek (a : Nat) (s : State) : Result :=
  if busy s then .refused .accessWhileBusy
  else if a < Config.bufSize then .next (s.pushSeen (s.bufByte a).toNat)
  else .refused .bufOffsetOutsideSpace

/-- The host writes the byte `v` at BUF offset `a` (R25, R28, R51; log 4). -/
def hostPoke (a : Nat) (v : Byte) (s : State) : Result :=
  if busy s then .refused .accessWhileBusy
  else if a < Config.bufSize then .next (s.setBuf (s.buf.write a v))
  else .refused .bufOffsetOutsideSpace

/-- The host polls `STATUS` until `BUSY` is 0: while busy the block takes its step and the host waits on (R51, R93; log 12). -/
def hostWait (s : State) : Result :=
  if busy s then blockStep (s.setScript (.wait :: s.script)) else .next s

/-- A command word as one transition: the decoded command's meaning `run`, or the reserved word's (R84; log 2). -/
def hostCommand (run : Instr → State → Result) (w : Byte) (s : State) : Result :=
  match decodeWord w with
  | .ok i => run i s
  | .error _ => execReserved s

/-- One turn, already taken off the schedule of `s` (R85, R92; log 1). -/
def takeTurn (run : Instr → State → Result) (t : Turn) (s : State) : Result :=
  match t with
  | .block => blockStep s
  | .command w => hostCommand run w s
  | .regRead n => hostRegRead n s
  | .regWrite n v => hostRegWrite n v s
  | .peek a => hostPeek a s
  | .poke a v => hostPoke a v s
  | .wait => hostWait s
  | .reset => .next (resetBlock s)

/-- The step of the whole system: the next turn, or the block's own step where no turn is left (R85, R89, R93; log 1). -/
def nextTurn (run : Instr → State → Result) (s : State) : Result :=
  match s.script with
  | [] => blockStep s
  | t :: rest => takeTurn run t (s.setScript rest)

/-- The turn that presents the command word `w`, put before all others (log 6). -/
def withCommandNext (w : Byte) (s : State) : State := s.setScript (.command w :: s.script)

end Sys2Proof.Machine
end

