-- ==== Sys2Proof/Machine/Step.lean ====
section
/-! DEFINITION. One step of the machine, and where a command word is placed so that the next step runs it. -/

namespace Sys2Proof.Machine

/-- One step of the system (R85): the next turn of the schedule, a whole command's turn running `exec`. -/
def step (s : State) : Host.Outcome State Fault Refusal := nextTurn exec s

/-- The word is the next one the host presents (R18; log 6). A command is one byte, so only bits 7:0 are in it. -/
def State.withFetchWord (s : State) (nbits w : Nat) : State :=
  withCommandNext (BitVec.ofNat 8 (w % 2 ^ nbits)) s

end Sys2Proof.Machine
end

