-- ==== Sys2Proof/Safety.lean ====
section
/-! DEFINITION. The vocabulary of the claims: a block ready for a command, the system's invariant, what the spec says of a
command's accesses, its count and its number of steps. -/

namespace Sys2Proof.Machine

/-- The block is idle and no fault is recorded: "while idle and with `ERR = 0`" (R57, R66, R79, R83). -/
abbrev Ready (s : State) : Prop := s.phase = .idle ∧ s.err = 0#4

/-- What holds of every state a run reaches: BUF is in canonical form; `ERR` is a code of R22; the fields of STATUS exclude
each other as R19 says; and a busy sequencer is where R87 and R88 say it is, with a command that asked for that phase and
a count that R24 bounds. -/
structure Inv (s : State) : Prop where
  bufWf : s.buf.wf = true
  errCode : s.err.toNat ≤ 2
  errQuiet : s.err ≠ 0#4 → s.phase = .idle ∧ s.done = false
  busyQuiet : s.phase ≠ .idle → s.done = false ∧ s.err = 0#4
  idxRange : idxInRange s = true
  expandCmd : s.phase = .expand → s.cmdr.getLsbD 0 = true ∧ Config.minLen ≤ s.len.toNat
  xorCmd : s.phase = .xor → s.cmdr.getLsbD 1 = true ∧ s.chg.toNat + Config.skip ≤ s.idx.toNat

/-- The turns with which the host disturbs nothing: it lets the block step or reads `STATUS` (R91, R92). -/
abbrev onlyWatches (t : Turn) : Prop := t = .block ∨ t = .regRead 0x01#8

/-- `k` steps of the machine, stopping at the first fault or refusal. -/
def runFor (k : Nat) (s : State) : Result := Host.Core.run Sys2Proof.core k s

/-- The accesses of a KEXP that does not fault, oldest first: 16 seed reads ascending, each register written once, ascending
(R33, R37, R62). -/
def kexpAccesses (s : State) : List Access :=
  (List.range Config.keyLen).flatMap fun n =>
    (if n < Config.seedLen then [.memRead (Config.seedOff + n) (s.bufByte (Config.seedOff + n))] else []) ++
      [.keyWrite n (expandByte (seedOf s) (n / 16) (n % 16))]

/-- Step 6 of R65 is reached for the byte `b` under the key byte `k`. -/
def stores (b k : Byte) : Bool := !isSentinel b && !isSentinel (b ^^^ k)

/-- The indices of the transform, ascending: 0x800 to LEN - 1 (R65). -/
def indices (s : State) : List Nat := List.range' Config.skip (s.len.toNat - Config.skip)

/-- The accesses of an XFRM, oldest first: at each index the read, then the write if step 6 is reached (R33, R37). -/
def xfrmAccesses (s : State) : List Access :=
  (indices s).flatMap fun i =>
    .memRead i (s.bufByte i) ::
      (if stores (s.bufByte i) (s.keyAt i) then [.memWrite i (s.bufByte i ^^^ s.keyAt i)] else [])

/-- The access stores to BUF. -/
def Access.isMemWrite (e : Access) : Bool :=
  match e with
  | .memWrite _ _ => true
  | .memRead _ _ => false
  | .keyWrite _ _ => false

/-- The number of steps of a command presented to a ready block, the accept step counted (R90). -/
def microSteps (i : Instr) (s : State) : Nat :=
  match i with
  | .nop => 1
  | .kexp => if tooShort s then 1 else 1 + 128
  | .xfrm => 1 + (s.len.toNat - Config.skip) + 1
  | .run => if tooShort s then 1 else 1 + 128 + (s.len.toNat - Config.skip) + 1

/-- The number of steps a busy block has left, read from its own PHASE, IDX and CMDR (R87, R88). -/
def stepsLeft (s : State) : Nat :=
  match s.phase with
  | .idle => 0
  | .expand => 128 - s.idx.toNat + (if s.cmdr.getLsbD 1 then s.len.toNat - Config.skip + 1 else 0)
  | .xor => max Config.skip s.len.toNat - s.idx.toNat + 1

/-- The tables of R17 and R25 permit the turn `t` in the state `s` (R28, R92): the register number exists, the direction is
allowed, the value fits, the offset lies in BUF, and the block is idle unless STATUS is read. Reset is permitted at any time, and
the block's own step and a WAIT, which only reads STATUS, are never forbidden. -/
def permitted (t : Turn) (s : State) : Bool :=
  match t with
  | .block => true
  | .command _ => decide (s.phase = .idle)
  | .regRead n => decide (n = 0x01#8 ∨ s.phase = .idle ∧ (n = 0x02#8 ∨ n = 0x03#8 ∨ 0x80 ≤ n.toNat))
  | .regWrite n v =>
    decide (s.phase = .idle ∧
      (n = 0x00#8 ∧ v < 2 ^ 8 ∨ n = 0x02#8 ∧ v < 2 ^ 32 ∨ 0x80 ≤ n.toNat ∧ v < 2 ^ 8))
  | .peek a => decide (s.phase = .idle ∧ a < 2 ^ 32)
  | .poke a _ => decide (s.phase = .idle ∧ a < 2 ^ 32)
  | .wait => true
  | .reset => true

end Sys2Proof.Machine
end

