-- ==== Sys2Proof/Certificates/Slice0/Obligations.lean ====
section
/-! DEFINITION. The statements for the provers, from the numbered rules of spec/. A host access, a command and reset are turns
of the field `script` (log 1); `s.script = t :: rest` says that `t` is the next turn. -/

open Sys2Proof Sys2Proof.Machine

/-! Encoding -/

/-- The four defined command words, with their bits EXP and XFM (30_encoding.md sections 2 and 3). -/
def Obligations.CommandWordsDecode : Prop :=
  (decodeWord 0b00000000#8 = .ok .nop ∧ expField 0x00#8 = false ∧ xfmField 0x00#8 = false) ∧
  (decodeWord 0b00000001#8 = .ok .kexp ∧ expField 0x01#8 = true ∧ xfmField 0x01#8 = false) ∧
  (decodeWord 0b00000010#8 = .ok .xfrm ∧ expField 0x02#8 = false ∧ xfmField 0x02#8 = true) ∧
  (decodeWord 0b00000011#8 = .ok .run ∧ expField 0x03#8 = true ∧ xfmField 0x03#8 = true)

/-- Encode and decode agree in both directions, and the words that decode are exactly those with RSV = 0 (30_encoding.md
sections 1 to 4). -/
def Obligations.DecodeEncodeAgree : Prop :=
  (∀ i : Instr, decodeWord (encodeWord i) = .ok i ∧ wordWf (encodeWord i) = true ∧
    ∀ rest : List Byte, decode (encode i ++ rest) = .ok (i, rest)) ∧
  (∀ (w : Byte) (i : Instr), decodeWord w = .ok i → w = encodeWord i) ∧
  (∀ w : Byte, (∃ i, decodeWord w = .ok i) ↔ wordWf w = true) ∧
  (∀ w : Byte, wordWf w = false → decodeWord w = .error (.reservedWord w))

/-! The step -/

/-- A step whose next turn is a command word that decodes to `i` is `exec i`, with that turn taken off the schedule; and
`withFetchWord` places such a word. The schedule is the model's own (log 1, log 6). -/
def Obligations.StepRunsPresentedCommand : Prop :=
  (∀ (s : State) (w : Byte) (rest : List Turn) (i : Instr),
    s.script = .command w :: rest → decodeWord w = .ok i → step s = exec i (s.setScript rest)) ∧
  (∀ (s : State) (i : Instr), step (s.withFetchWord 8 (encodeWord i).toNat) = exec i s)

/-- Every command has a meaning in every idle state (R69, R97, R102), and a presentation while busy is refused (R28; the
refusal's name is the model's own, log 9). -/
def Obligations.CommandsRunExactlyWhenIdle : Prop :=
  (∀ (i : Instr) (s : State), s.phase = .idle → ∃ t, exec i s = .next t) ∧
  (∀ (i : Instr) (s : State), s.phase ≠ .idle → exec i s = .refused .accessWhileBusy)

/-! NOP -/

/-- R83: NOP ends with DONE = 1, the block not busy, everything else untouched (`CMDR` by R86 line 5); ignored while ERR != 0.
-/
def Obligations.NopCompletes : Prop :=
  (∀ s : State, Ready s → exec .nop s = .next { s with done := true, cmdr := 0#2 }) ∧
  (∀ s : State, s.phase = .idle → s.err ≠ 0#4 → exec .nop s = .next s)

/-! Faults -/

/-- R96: a word with any of bits 7:2 set, presented while idle with ERR = 0 (as a whole command or through register CMD), sets
ERR to 2 and clears DONE; nothing else changes. -/
def Obligations.ReservedWordRaisesIllegalCommand : Prop :=
  ∀ (s : State) (w : Byte) (rest : List Turn), Ready s → w.extractLsb 7 2 ≠ 0#6 →
    (s.script = .command w :: rest →
      step s = .next { s with done := false, err := 2#4, script := rest }) ∧
    (s.script = .regWrite 0x00#8 w.toNat :: rest →
      step s = .next { s with done := false, err := 2#4, script := rest })

/-- R95: KEXP and RUN with LEN < 0x410 record INSUFFICIENT_LENGTH and nothing else; with LEN >= 0x410 they do not; XFRM and NOP
never do, whatever LEN is. -/
def Obligations.ShortImageRaisesInsufficientLength : Prop :=
  ∀ s : State, Ready s →
    (s.len.toNat < 0x410 →
      exec .kexp s = .next { s with done := false, err := 1#4 } ∧
      exec .run s = .next { s with done := false, err := 1#4 }) ∧
    (0x410 ≤ s.len.toNat →
      (∃ t, exec .kexp s = .next t ∧ t.err = 0#4) ∧ (∃ t, exec .run s = .next t ∧ t.err = 0#4)) ∧
    (∃ t, exec .xfrm s = .next t ∧ t.err = 0#4) ∧ (∃ t, exec .nop s = .next t ∧ t.err = 0#4)

/-- R100: a command that faults changes DONE and ERR only, makes no access, and no fault arises once a command is busy. -/
def Obligations.FaultsArePrecise : Prop :=
  (∀ (w : Byte) (s t : State) (rest : List Turn), Ready s →
    (s.script = .command w :: rest ∨ s.script = .regWrite 0x00#8 w.toNat :: rest) →
    step s = .next t → t.err ≠ 0#4 →
    t = { s with done := false, err := t.err, script := rest }) ∧
  (∀ s t : State, s.phase ≠ .idle → s.err = 0#4 → step s = .next t → t.err = 0#4)

/-- R102: while a fault is recorded every presented word is ignored, and the host's accesses to LEN, K and BUF and its reads of
CHG and STATUS work as when idle. -/
def Obligations.FaultedBlockIgnoresWords : Prop :=
  ∀ (s : State) (rest : List Turn), s.phase = .idle → s.err ≠ 0#4 →
    (∀ w : Byte, s.script = .command w :: rest → step s = .next (s.setScript rest)) ∧
    (∀ w : Byte, s.script = .regWrite 0x00#8 w.toNat :: rest → step s = .next (s.setScript rest)) ∧
    (∀ v : Word, s.script = .regWrite 0x02#8 v.toNat :: rest →
      step s = .next { s with len := v, script := rest }) ∧
    (∀ (n : Nat) (v : Byte), n < 128 → s.script = .regWrite (BitVec.ofNat 8 (0x80 + n)) v.toNat :: rest →
      step s = .next ((s.setScript rest).setKey n v)) ∧
    (s.script = .regRead 0x01#8 :: rest →
      step s = .next ((s.setScript rest).pushSeen (statusWord s).toNat)) ∧
    (s.script = .regRead 0x02#8 :: rest → step s = .next ((s.setScript rest).pushSeen s.len.toNat)) ∧
    (s.script = .regRead 0x03#8 :: rest → step s = .next ((s.setScript rest).pushSeen s.chg.toNat)) ∧
    (∀ n : Nat, n < 128 → s.script = .regRead (BitVec.ofNat 8 (0x80 + n)) :: rest →
      step s = .next ((s.setScript rest).pushSeen (s.keyAt n).toNat)) ∧
    (∀ a : Nat, a < 2 ^ 32 → s.script = .peek a :: rest →
      step s = .next ((s.setScript rest).pushSeen (s.bufByte a).toNat)) ∧
    (∀ (a : Nat) (v : Byte), a < 2 ^ 32 → s.script = .poke a v :: rest →
      step s = .next ((s.setScript rest).setBuf (s.buf.write a v)))

/-- R103: the only step that clears ERR is reset, which also clears K, LEN and CHG; a second fault is never recorded. -/
def Obligations.ErrStaysUntilReset : Prop :=
  ∀ s t : State, s.err ≠ 0#4 → step s = .next t →
    t.err = s.err ∨
    ((∃ rest, s.script = .reset :: rest) ∧
      t.err = 0#4 ∧ t.key = Vector.replicate 128 0#8 ∧ t.len = 0#32 ∧ t.chg = 0#32)

/-! The Key Expander -/

/-- R53 and R54 bit by bit. -/
def Obligations.RotationBits : Prop :=
  ∀ v : Byte,
    rol8 v = ((v <<< 1) &&& 0xFF#8) ||| (v >>> 7) ∧
    (rol8 v).getLsbD 0 = v.getLsbD 7 ∧ (∀ j, 1 ≤ j → j ≤ 7 → (rol8 v).getLsbD j = v.getLsbD (j - 1)) ∧
    ror8 v = (v >>> 1) ||| ((v &&& 1#8) <<< 7) ∧
    (ror8 v).getLsbD 7 = v.getLsbD 0 ∧ (∀ j, j ≤ 6 → (ror8 v).getLsbD j = v.getLsbD (j + 1))

/-- The two rotations are inverse, eight of either are the identity, rol8 s times is ror8 8 - s times, and only 0x00 and 0xFF
are fixed (40_key_expander.md section 1, there derived). -/
def Obligations.RotationsAreInverse : Prop :=
  ∀ v : Byte,
    ror8 (rol8 v) = v ∧ rol8 (ror8 v) = v ∧ rol8^[8] v = v ∧ ror8^[8] v = v ∧
    (∀ n, n ≤ 8 → rol8^[n] v = ror8^[8 - n] v) ∧
    (rol8 v = v ↔ v = 0x00#8 ∨ v = 0xFF#8) ∧ (ror8 v = v ↔ v = 0x00#8 ∨ v = 0xFF#8)

/-- KEXP on an image of at least 0x410 bytes completes with K = expand(BUF[0x400 .. 0x40F]), writes K, DONE and the hidden
sequencer state, and nothing else (40_key_expander.md sections 3 and 4). That IDX ends as 127 and CMDR as 1 is 43_microsteps.md
section 3's, there derived, and the model's choice for a whole command (log 2). The event history is the model's own (log 5). -/
def Obligations.KexpExpandsSeedIntoKey : Prop :=
  ∀ s : State, Ready s → 0x410 ≤ s.len.toNat →
    ∃ t, exec .kexp s = .next t ∧
      t.key = expand (seedOf s) ∧ t.done = true ∧ t.idx = 127#32 ∧ t.cmdr = 1#2 ∧
      t.phase = .idle ∧ t.err = 0#4 ∧ t.len = s.len ∧ t.chg = s.chg ∧ t.buf = s.buf ∧
      t.script = s.script ∧ t.seen = s.seen

/-- R60: K after KEXP is a function of the 16 seed bytes alone. -/
def Obligations.KexpDependsOnSeedOnly : Prop :=
  ∀ s₁ s₂ : State, Ready s₁ → Ready s₂ → 0x410 ≤ s₁.len.toNat → 0x410 ≤ s₂.len.toNat →
    (∀ n, n < 16 → s₁.bufByte (0x400 + n) = s₂.bufByte (0x400 + n)) →
    ∃ t₁ t₂, exec .kexp s₁ = .next t₁ ∧ exec .kexp s₂ = .next t₂ ∧ t₁.key = t₂.key

/-- After KEXP, byte o of segment g is the seed byte o rotated g times, left for o <= 7 and right for o >= 8 (40_key_expander.md
section 4, closed form, there derived). -/
def Obligations.KexpClosedForm : Prop :=
  ∀ s : State, Ready s → 0x410 ≤ s.len.toNat →
    ∃ t, exec .kexp s = .next t ∧
      ∀ g o : Nat, g ≤ 7 → o ≤ 15 →
        t.keyAt (16 * g + o) =
          if o ≤ 7 then rol8^[g] (s.bufByte (0x400 + o)) else ror8^[g] (s.bufByte (0x400 + o))

/-- KEXP reads each offset 0x400 + n once, ascending, writes each of the 128 key registers once, ascending, and stores nothing
to BUF (20_memory.md sections 4 and 7, 40_key_expander.md section 4). The history is the model's own field (log 5). -/
def Obligations.KexpAccessHistory : Prop :=
  ∀ s : State, Ready s → 0x410 ≤ s.len.toNat →
    ∃ t, exec .kexp s = .next t ∧ t.trace = (kexpAccesses s).reverse ++ s.trace

/-! The Selective XOR Transform -/

/-- The byte function of 41_selective_xor.md section 1 and its consequences on one byte: which bytes are left alone, and the
involution of 41_selective_xor.md section 4 (there derived). -/
def Obligations.ByteTransformLaws : Prop :=
  ∀ b k : Byte,
    (b = 0x00#8 ∨ b = 0xFF#8 → xf b k = b) ∧
    (b ^^^ k = 0x00#8 ∨ b ^^^ k = 0xFF#8 → xf b k = b) ∧
    (¬ (b = 0x00#8 ∨ b = 0xFF#8) → ¬ (b ^^^ k = 0x00#8 ∨ b ^^^ k = 0xFF#8) → xf b k = b ^^^ k) ∧
    xf (xf b k) k = b ∧ (isSentinel (xf b k) = true ↔ isSentinel b = true)

/-- The key byte for index i is K[i mod 128], the low 7 bits of i; 0x800 + m uses K[m mod 128] (41_selective_xor.md section
3). -/
def Obligations.KeyIndexIsLowSevenBits : Prop :=
  ∀ (s : State) (i : Word) (m : Nat),
    s.keyAt i.toNat = s.key[(i.extractLsb 6 0).toNat]'((i.extractLsb 6 0).isLt) ∧
    s.keyAt (0x800 + m) = s.keyAt (m % 128)

/-- XFRM completes for every LEN; `out[i] = xf(buf[i], key[i mod 128])` from 0x800 to LEN - 1, every other byte of BUF as
before; K, LEN and the rest unchanged (41_selective_xor.md sections 2 and 3). That IDX ends as max(0x800, LEN) and CMDR as 2 is
43_microsteps.md section 3's, there derived, and the model's choice for a whole command (log 2). -/
def Obligations.XfrmTransformsImage : Prop :=
  ∀ s : State, Ready s →
    ∃ t, exec .xfrm s = .next t ∧
      (∀ i, 0x800 ≤ i → i < s.len.toNat → t.bufByte i = xf (s.bufByte i) (s.key[i % 128]'(Nat.mod_lt _ (by decide)))) ∧
      (∀ a, a < 0x800 ∨ s.len.toNat ≤ a → t.bufByte a = s.bufByte a) ∧
      t.key = s.key ∧ t.len = s.len ∧ t.done = true ∧ t.err = 0#4 ∧ t.phase = .idle ∧
      t.cmdr = 2#2 ∧ t.idx.toNat = max 0x800 s.len.toNat ∧ t.script = s.script ∧ t.seen = s.seen

/-- R68: CHG after XFRM is the number of indices whose byte differs before and after; the number of stores made is CHG plus the
number of processed non-sentinel bytes whose key byte is 0x00. -/
def Obligations.XfrmCountsChangedBytes : Prop :=
  ∀ s : State, Ready s →
    ∃ t ev, exec .xfrm s = .next t ∧ t.trace = ev ++ s.trace ∧
      t.chg.toNat = (indices s).countP (fun i => t.bufByte i != s.bufByte i) ∧
      ev.countP Access.isMemWrite =
        t.chg.toNat + (indices s).countP (fun i => !isSentinel (s.bufByte i) && s.keyAt i == 0x00#8)

/-- XFRM reads each index from 0x800 to LEN - 1 once, ascending, and stores at it at most once, after the read, exactly when
step 6 is reached (20_memory.md sections 4 and 7). The history is the model's own field (log 5). -/
def Obligations.XfrmAccessHistory : Prop :=
  ∀ s : State, Ready s →
    ∃ t, exec .xfrm s = .next t ∧ t.trace = (xfrmAccesses s).reverse ++ s.trace

/-- R72 and R73, for both commands that transform: a sentinel byte is never overwritten, and a byte that changes becomes none.
-/
def Obligations.SentinelsPreservedAndNeverIntroduced : Prop :=
  ∀ (s : State) (c : Instr), Ready s → (c = .xfrm ∨ c = .run ∧ 0x410 ≤ s.len.toNat) →
    ∃ t, exec c s = .next t ∧
      ∀ i, 0x800 ≤ i →
        (s.bufByte i = 0x00#8 ∨ s.bufByte i = 0xFF#8 → t.bufByte i = s.bufByte i) ∧
        (t.bufByte i ≠ s.bufByte i → t.bufByte i ≠ 0x00#8 ∧ t.bufByte i ≠ 0xFF#8)

/-- The output byte at an index depends on the input byte at it and on its key byte only (41_selective_xor.md section 4,
independence, there derived). -/
def Obligations.OutputByteDependsOnOwnByteAndKey : Prop :=
  ∀ (s₁ s₂ : State) (i : Nat), Ready s₁ → Ready s₂ → 0x800 ≤ i → i < s₁.len.toNat → i < s₂.len.toNat →
    s₁.bufByte i = s₂.bufByte i → s₁.keyAt i = s₂.keyAt i →
    ∃ t₁ t₂, exec .xfrm s₁ = .next t₁ ∧ exec .xfrm s₂ = .next t₂ ∧ t₁.bufByte i = t₂.bufByte i

/-- An all-zero key changes no value and counts none; under an all-0xFF key every non-sentinel byte of the region becomes its
complement (41_selective_xor.md section 4, identity cases, there derived). -/
def Obligations.UniformKeyCases : Prop :=
  ∀ s : State, Ready s →
    (s.key = Vector.replicate 128 0x00#8 →
      ∃ t, exec .xfrm s = .next t ∧ (∀ a, t.bufByte a = s.bufByte a) ∧ t.chg = 0#32) ∧
    (s.key = Vector.replicate 128 0xFF#8 →
      ∃ t, exec .xfrm s = .next t ∧
        ∀ i, 0x800 ≤ i → i < s.len.toNat → isSentinel (s.bufByte i) = false →
          t.bufByte i = s.bufByte i ^^^ 0xFF#8 ∧ isSentinel (t.bufByte i) = false)

/-- Two XFRM in a row with K and LEN unchanged restore every byte of BUF and report the same CHG (41_selective_xor.md section 4,
buffer involution, there derived; 90_conflicts.md C5). -/
def Obligations.XfrmTwiceRestoresImage : Prop :=
  ∀ s : State, Ready s →
    ∃ t u, exec .xfrm s = .next t ∧ exec .xfrm t = .next u ∧
      (∀ a, u.bufByte a = s.bufByte a) ∧ u.chg = t.chg ∧ u.key = s.key ∧ u.len = s.len

/-! RUN -/

/-- RUN (42_pipeline.md section 1) on an image of at least 0x410 bytes completes with the key of the seed in K, the image
transformed with that key, the changed bytes counted in CHG, LEN and every byte outside the transform region as before. That IDX
ends as max(0x800, LEN) and CMDR as 3 is 43_microsteps.md section 3's, there derived, and the model's choice for a whole
command (log 2). -/
def Obligations.RunExpandsThenTransforms : Prop :=
  ∀ s : State, Ready s → 0x410 ≤ s.len.toNat →
    ∃ t, exec .run s = .next t ∧
      t.key = expand (seedOf s) ∧
      (∀ i, 0x800 ≤ i → i < s.len.toNat →
        t.bufByte i = xf (s.bufByte i) ((expand (seedOf s))[i % 128]'(Nat.mod_lt _ (by decide)))) ∧
      (∀ a, a < 0x800 ∨ s.len.toNat ≤ a → t.bufByte a = s.bufByte a) ∧
      t.chg.toNat = (indices s).countP (fun i => t.bufByte i != s.bufByte i) ∧
      t.len = s.len ∧ t.done = true ∧ t.err = 0#4 ∧ t.phase = .idle ∧
      t.cmdr = 3#2 ∧ t.idx.toNat = max 0x800 s.len.toNat ∧ t.script = s.script ∧ t.seen = s.seen

/-- The end state of RUN is that of KEXP followed by XFRM, up to the command latch, which nothing reads when idle
(42_pipeline.md section 1). -/
def Obligations.RunIsKexpThenXfrm : Prop :=
  ∀ s : State, Ready s → 0x410 ≤ s.len.toNat →
    ∃ t u, exec .kexp s = .next t ∧ exec .xfrm t = .next u ∧ exec .run s = .next { u with cmdr := 3#2 }

/-- R81: with 0x410 <= LEN <= 0x800 RUN expands the key, leaves BUF unchanged, sets CHG to 0 and DONE to 1. -/
def Obligations.RunWithNothingToTransform : Prop :=
  ∀ s : State, Ready s → 0x410 ≤ s.len.toNat → s.len.toNat ≤ 0x800 →
    ∃ t, exec .run s = .next t ∧
      t.key = expand (seedOf s) ∧ t.buf = s.buf ∧ t.chg = 0#32 ∧ t.done = true ∧ t.err = 0#4

/-- Two RUN in a row on the same BUF and LEN restore every byte of BUF and leave the same K and CHG (42_pipeline.md section 1,
round trip, there derived). -/
def Obligations.RunTwiceRestoresImage : Prop :=
  ∀ s : State, Ready s → 0x410 ≤ s.len.toNat →
    ∃ t u, exec .run s = .next t ∧ exec .run t = .next u ∧
      (∀ a, u.bufByte a = s.bufByte a) ∧ u.key = t.key ∧ u.chg = t.chg ∧ u.len = s.len

/-! The sequencer's micro-steps -/

/-- R86: the accept step, line by line. A word written to CMD while idle is checked in the order of the rule; the whole effect
of each line is given. -/
def Obligations.AcceptStepLines : Prop :=
  ∀ (s : State) (w : Byte) (rest : List Turn), s.phase = .idle → s.script = .regWrite 0x00#8 w.toNat :: rest →
    (s.err ≠ 0#4 → step s = .next { s with script := rest }) ∧
    (s.err = 0#4 → w.extractLsb 7 2 ≠ 0#6 →
      step s = .next { s with script := rest, done := false, err := 2#4 }) ∧
    (s.err = 0#4 → w.extractLsb 7 2 = 0#6 → w.getLsbD 0 = true → s.len.toNat < 0x410 →
      step s = .next { s with script := rest, done := false, err := 1#4 }) ∧
    (s.err = 0#4 → w.extractLsb 7 2 = 0#6 → w.getLsbD 0 = true → 0x410 ≤ s.len.toNat →
      step s = .next { s with script := rest, done := false, cmdr := w.extractLsb 1 0, phase := .expand, idx := 0#32 }) ∧
    (s.err = 0#4 → w.extractLsb 7 2 = 0#6 → w.getLsbD 0 = false → w.getLsbD 1 = true →
      step s = .next { s with
        script := rest, done := false, cmdr := w.extractLsb 1 0, phase := .xor, idx := 0x800#32, chg := 0#32 }) ∧
    (s.err = 0#4 → w.extractLsb 7 2 = 0#6 → w.getLsbD 0 = false → w.getLsbD 1 = false →
      step s = .next { s with script := rest, done := true, cmdr := w.extractLsb 1 0 })

/-- One EXPAND step (43_microsteps.md section 2) at n = IDX writes K[n] and no other key register, with the value of the rule;
IDX, PHASE, CHG and DONE move as it says; LEN, BUF, CMDR and ERR do not. -/
def Obligations.ExpandStepWritesKeyRegister : Prop :=
  ∀ (s : State) (n : Nat), s.phase = .expand → s.idx.toNat = n → n ≤ 127 →
    ∃ t, blockStep s = .next t ∧
      t.keyAt n =
        (if n < 16 then s.bufByte (0x400 + n)
         else if n % 16 < 8 then rol8 (s.keyAt (n - 16)) else ror8 (s.keyAt (n - 16))) ∧
      (∀ m, m < 128 → m ≠ n → t.keyAt m = s.keyAt m) ∧
      (n < 127 → t.idx.toNat = n + 1 ∧ t.phase = .expand ∧ t.chg = s.chg ∧ t.done = s.done) ∧
      (n = 127 → s.cmdr.getLsbD 1 = true →
        t.phase = .xor ∧ t.idx = 0x800#32 ∧ t.chg = 0#32 ∧ t.done = s.done) ∧
      (n = 127 → s.cmdr.getLsbD 1 = false →
        t.phase = .idle ∧ t.done = true ∧ t.idx = s.idx ∧ t.chg = s.chg) ∧
      t.len = s.len ∧ t.buf = s.buf ∧ t.cmdr = s.cmdr ∧ t.err = s.err ∧ t.script = s.script ∧ t.seen = s.seen

/-- One XOR step (43_microsteps.md section 2) handles the index i = IDX completely, or, at i >= LEN, ends the transform. -/
def Obligations.XorStepHandlesOneIndex : Prop :=
  ∀ (s : State) (i : Nat), s.phase = .xor → s.idx.toNat = i → 0x800 ≤ i → i ≤ max 0x800 s.len.toNat →
    (s.len.toNat ≤ i → blockStep s = .next { s with phase := .idle, done := true }) ∧
    (i < s.len.toNat →
      ∃ t, blockStep s = .next t ∧
        (∀ a, t.bufByte a = if a = i then xf (s.bufByte i) (s.keyAt i) else s.bufByte a) ∧
        t.chg = (if xf (s.bufByte i) (s.keyAt i) = s.bufByte i then s.chg else s.chg + 1#32) ∧
        t.idx.toNat = i + 1 ∧ t.phase = .xor ∧ t.key = s.key ∧ t.len = s.len ∧ t.cmdr = s.cmdr ∧
        t.done = s.done ∧ t.err = s.err ∧ t.script = s.script ∧ t.seen = s.seen)

/-- R89: an idle block changes nothing until the host presents a word or reset occurs. -/
def Obligations.IdleBlockHasNoStep : Prop :=
  ∀ s : State, s.phase = .idle →
    blockStep s = .next s ∧ (s.script = [] → step s = .next s) ∧
    (∀ rest, s.script = .block :: rest → step s = .next { s with script := rest })

/-- The step counts of 43_microsteps.md section 3 (there derived): a word written to CMD of a ready block, then the block's own
steps. BUSY reads 1 after every step before the last and 0 after the last, and DONE or ERR is then set. -/
def Obligations.BusyUntilLastMicroStep : Prop :=
  ∀ (i : Instr) (s : State), Ready s →
    (∀ k, 1 ≤ k → k < microSteps i s →
      ∃ t, runFor k (s.setScript [.regWrite 0x00#8 (encodeWord i).toNat]) = .next t ∧ statusWord t = 0x01#8) ∧
    (∃ t, runFor (microSteps i s) (s.setScript [.regWrite 0x00#8 (encodeWord i).toNat]) = .next t ∧
      (statusWord t = 0x02#8 ∨ statusWord t = 0x10#8))

/-- Agreement of the two levels (43_microsteps.md section 3, there derived): a word written to CMD of a ready block, then any
schedule of block steps and STATUS reads with enough block steps, ends in the state of the whole command, but for the values
the host has read. -/
def Obligations.MicroStepsReachWholeCommand : Prop :=
  ∀ (i : Instr) (s : State) (turns : List Turn), Ready s → (∀ t ∈ turns, onlyWatches t) →
    microSteps i s ≤ 1 + turns.count .block →
    ∃ t u, exec i (s.setScript []) = .next t ∧
      runFor (1 + turns.length) (s.setScript (.regWrite 0x00#8 (encodeWord i).toNat :: turns)) = .next u ∧
      { u with seen := s.seen } = t

/-- A host WAIT ends, whatever state of the invariant it starts in (43_microsteps.md section 4), with the block idle, after
exactly the steps the block has left by its PHASE, IDX and CMDR and one more; until then it stands next in the schedule. That each
poll is one step of the block is the model's choice (log 12). -/
def Obligations.WaitEnds : Prop :=
  ∀ (s : State) (rest : List Turn), Inv s → s.script = .wait :: rest →
    (∀ k, k ≤ stepsLeft s → ∃ t, runFor k s = .next t ∧ t.script = .wait :: rest ∧ stepsLeft t = stepsLeft s - k) ∧
    (∃ t, runFor (stepsLeft s + 1) s = .next t ∧ t.phase = .idle ∧ t.script = rest)

/-- Reset in the middle of a transform leaves BUF mixed: of an XFRM from a ready state, after k XOR steps the indices below
0x800 + k are transformed and the rest not, and reset keeps exactly that (70_reset_and_hazards.md section 1). -/
def Obligations.ResetMidTransformLeavesMixedImage : Prop :=
  ∀ (s : State) (k : Nat), Ready s → k ≤ s.len.toNat - 0x800 →
    ∃ t, runFor (1 + k + 1) (s.setScript (.regWrite 0x00#8 0x02 :: (List.replicate k .block ++ [.reset]))) = .next t ∧
      (∀ a, t.bufByte a =
        if 0x800 ≤ a ∧ a < 0x800 + k then xf (s.bufByte a) (s.keyAt a) else s.bufByte a) ∧
      t = { State.reset with buf := t.buf, seen := s.seen, trace := t.trace }

/-! Status and the host's port -/

/-- The fields of STATUS: bits 7:4 ERR, bits 3:2 zero, bit 1 DONE, bit 0 BUSY, and BUSY = (PHASE != IDLE) (10_state.md section
4). -/
def Obligations.StatusFields : Prop :=
  ∀ s : State,
    (statusWord s).extractLsb 7 4 = s.err ∧ (statusWord s).extractLsb 3 2 = 0#2 ∧
    (statusWord s).getLsbD 1 = s.done ∧ (statusWord s).getLsbD 0 = decide (s.phase ≠ .idle)

/-- The legal values of STATUS in every state of the invariant: 0x00, 0x01, 0x02, 0x10, 0x20 (10_state.md section 4, there
derived). -/
def Obligations.StatusLegalValues : Prop :=
  ∀ s : State, Inv s → statusWord s ∈ [0x00#8, 0x01#8, 0x02#8, 0x10#8, 0x20#8]

/-- What each permitted access of an idle block to LEN, CHG and K returns or sets, and that it changes nothing else (10_state.md
sections 2 and 4; the list of values read is the model's own, log 5). -/
def Obligations.PermittedRegisterAccess : Prop :=
  ∀ (s : State) (rest : List Turn), s.phase = .idle →
    (s.script = .regRead 0x02#8 :: rest → step s = .next { s with script := rest, seen := s.len.toNat :: s.seen }) ∧
    (s.script = .regRead 0x03#8 :: rest → step s = .next { s with script := rest, seen := s.chg.toNat :: s.seen }) ∧
    (∀ n : Fin 128, s.script = .regRead (BitVec.ofNat 8 (0x80 + n.val)) :: rest →
      step s = .next { s with script := rest, seen := s.key[n.val].toNat :: s.seen }) ∧
    (∀ v : Word, s.script = .regWrite 0x02#8 v.toNat :: rest → step s = .next { s with script := rest, len := v }) ∧
    (∀ (n : Fin 128) (v : Byte), s.script = .regWrite (BitVec.ofNat 8 (0x80 + n.val)) v.toNat :: rest →
      step s = .next { s with script := rest, key := s.key.set n.val v })

/-- A read of STATUS has a meaning at any time and changes no state (43_microsteps.md section 4; the list of values read is the
model's own, log 5). -/
def Obligations.StatusReadAnyTime : Prop :=
  ∀ (s : State) (rest : List Turn), s.script = .regRead 0x01#8 :: rest →
    step s = .next { s with script := rest, seen := (statusWord s).toNat :: s.seen }

/-- Every host access no table permits is refused, with the reason the model gives it: any but a STATUS read while busy; a
read of CMD; a write of STATUS or CHG; an access to numbers 0x04 to 0x7F; a value wider than the register; a BUF offset outside
the space (10_state.md section 7). The names of the refusals and which of several reasons is named are the model's choice (log 4,
log 9). -/
def Obligations.UnpermittedAccessRefused : Prop :=
  ∀ (s : State) (rest : List Turn),
    (s.phase ≠ .idle →
      (∀ n : RegNum, n ≠ 0x01#8 → s.script = .regRead n :: rest → step s = .refused .accessWhileBusy) ∧
      (∀ (n : RegNum) (v : Nat), s.script = .regWrite n v :: rest → step s = .refused .accessWhileBusy) ∧
      (∀ w : Byte, s.script = .command w :: rest → step s = .refused .accessWhileBusy) ∧
      (∀ a : Nat, s.script = .peek a :: rest → step s = .refused .accessWhileBusy) ∧
      (∀ (a : Nat) (v : Byte), s.script = .poke a v :: rest → step s = .refused .accessWhileBusy)) ∧
    (s.phase = .idle →
      (s.script = .regRead 0x00#8 :: rest → step s = .refused .readOfCmd) ∧
      (∀ v : Nat, s.script = .regWrite 0x01#8 v :: rest → step s = .refused .writeOfStatus) ∧
      (∀ v : Nat, s.script = .regWrite 0x03#8 v :: rest → step s = .refused .writeOfChg) ∧
      (∀ n : RegNum, 0x04 ≤ n.toNat → n.toNat ≤ 0x7F → s.script = .regRead n :: rest →
        step s = .refused .reservedRegister) ∧
      (∀ (n : RegNum) (v : Nat), 0x04 ≤ n.toNat → n.toNat ≤ 0x7F → s.script = .regWrite n v :: rest →
        step s = .refused .reservedRegister) ∧
      (∀ v : Nat, 2 ^ 8 ≤ v → s.script = .regWrite 0x00#8 v :: rest → step s = .refused .valueTooWide) ∧
      (∀ v : Nat, 2 ^ 32 ≤ v → s.script = .regWrite 0x02#8 v :: rest → step s = .refused .valueTooWide) ∧
      (∀ (n : RegNum) (v : Nat), 0x80 ≤ n.toNat → 2 ^ 8 ≤ v → s.script = .regWrite n v :: rest →
        step s = .refused .valueTooWide) ∧
      (∀ a : Nat, 2 ^ 32 ≤ a → s.script = .peek a :: rest → step s = .refused .bufOffsetOutsideSpace) ∧
      (∀ (a : Nat) (v : Byte), 2 ^ 32 ≤ a → s.script = .poke a v :: rest → step s = .refused .bufOffsetOutsideSpace))

/-! Memory -/

/-- BUF as ordinary memory (20_memory.md section 4), to the host and to the block: a read returns the last value written to
that offset; a write changes no other byte; a read changes nothing. A host access outside the space (10_state.md sections 5
and 7) is refused; the refusal's name is the model's choice (log 4). -/
def Obligations.BufReadsLastWrite : Prop :=
  (∀ (s : State) (a x : Nat) (v : Byte),
    (s.memWrite a v).bufByte a = v ∧ (x ≠ a → (s.memWrite a v).bufByte x = s.bufByte x)) ∧
  (∀ (s : State) (rest : List Turn) (a : Nat) (v : Byte), s.phase = .idle → a < 2 ^ 32 → s.script = .poke a v :: rest →
    ∃ t, step s = .next t ∧ t.bufByte a = v ∧ (∀ x, x ≠ a → t.bufByte x = s.bufByte x) ∧
      t = { s with script := rest, buf := t.buf }) ∧
  (∀ (s : State) (rest : List Turn) (a : Nat), s.phase = .idle → a < 2 ^ 32 → s.script = .peek a :: rest →
    step s = .next { s with script := rest, seen := (s.bufByte a).toNat :: s.seen }) ∧
  (∀ (s : State) (rest : List Turn) (a : Nat) (v : Byte), s.phase = .idle → 2 ^ 32 ≤ a →
    (s.script = .peek a :: rest ∨ s.script = .poke a v :: rest) → step s = .refused .bufOffsetOutsideSpace)

/-- Canonical memories that hold the same bytes at every offset are equal as data. The form is the model's own (log 3). -/
def Obligations.CanonicalMemoriesEqual : Prop :=
  ∀ m₁ m₂ : Memory, m₁.wf = true → m₂.wf = true → (∀ a, m₁.read? a = m₂.read? a) → m₁ = m₂

/-! Whole-machine rules -/

/-- R111: reset in any state (the model's reset turn) gives every piece of block state its value of R27 and touches nothing
else; STATUS then reads 0x00, and with no turn left nothing runs by itself. -/
def Obligations.ResetEffect : Prop :=
  ∀ (s : State) (rest : List Turn), s.script = .reset :: rest →
    ∃ t, step s = .next t ∧
      t = { s with
        key := Vector.replicate 128 0#8, len := 0#32, chg := 0#32, phase := .idle, idx := 0#32, cmdr := 0#2,
        done := false, err := 0#4, script := rest } ∧
      statusWord t = 0x00#8 ∧ (rest = [] → step t = .next t)

/-- The first command after reset (70_reset_and_hazards.md section 1, there derived): NOP succeeds, KEXP and RUN record
INSUFFICIENT_LENGTH, XFRM succeeds and touches nothing. -/
def Obligations.FirstCommandAfterReset : Prop :=
  (∃ t, step (State.reset.withFetchWord 8 0x00) = .next t ∧ statusWord t = 0x02#8) ∧
  (∃ t, step (State.reset.withFetchWord 8 0x01) = .next t ∧ statusWord t = 0x10#8) ∧
  (∃ t, step (State.reset.withFetchWord 8 0x02) = .next t ∧ statusWord t = 0x02#8 ∧ t.trace = [] ∧ t.buf = []) ∧
  (∃ t, step (State.reset.withFetchWord 8 0x03) = .next t ∧ statusWord t = 0x10#8)

/-- R14: the legal transitions of PHASE. -/
def Obligations.PhaseTransitions : Prop :=
  ∀ s t : State, step s = .next t →
    t.phase = s.phase ∨
    (s.phase = .idle ∧ t.phase = .expand) ∨ (s.phase = .idle ∧ t.phase = .xor) ∨
    (s.phase = .expand ∧ t.phase = .xor) ∨ (s.phase = .expand ∧ t.phase = .idle) ∨
    (s.phase = .xor ∧ t.phase = .idle)

/-- R40: nothing but KEXP or RUN (whole, or by its EXPAND steps), a host write to K, or reset changes K. -/
def Obligations.KeyChangesOnlyByExpansionHostOrReset : Prop :=
  ∀ s t : State, step s = .next t → t.key ≠ s.key →
    s.phase = .expand ∨
    (∃ rest, s.script = .command 0x01#8 :: rest ∨ s.script = .command 0x03#8 :: rest) ∨
    (∃ (n : RegNum) (v : Nat) (rest : List Turn), 0x80 ≤ n.toNat ∧ s.script = .regWrite n v :: rest) ∨
    (∃ rest, s.script = .reset :: rest)

/-- LEN is written by the host and by reset only; the block never writes it (10_state.md section 4). -/
def Obligations.LenChangesOnlyByHostOrReset : Prop :=
  ∀ s t : State, step s = .next t → t.len ≠ s.len →
    (∃ (v : Nat) (rest : List Turn), s.phase = .idle ∧ s.script = .regWrite 0x02#8 v :: rest ∧ t.len.toNat = v) ∨
    (∃ rest, s.script = .reset :: rest ∧ t.len = 0#32)

/-- CHG moves only when a transform starts or runs, or at reset; KEXP, NOP, a faulting command (a RUN with LEN < 0x410 among
them) and host writes leave it unchanged (10_state.md section 4). -/
def Obligations.ChgChangesOnlyByTransformOrReset : Prop :=
  ∀ s t : State, step s = .next t → t.chg ≠ s.chg →
    s.phase = .xor ∨ (s.phase = .expand ∧ t.phase = .xor) ∨
    (s.phase = .idle ∧ s.err = 0#4 ∧ ∃ rest, s.script = .command 0x02#8 :: rest ∨
      (s.script = .command 0x03#8 :: rest ∧ 0x410 ≤ s.len.toNat) ∨ s.script = .regWrite 0x00#8 0x02 :: rest) ∨
    (∃ rest, s.script = .reset :: rest)

/-- No step but the host's own write changes a byte of BUF outside 0x800 .. LEN - 1: the header, with the seed, and all at or
beyond LEN are never written by the block (20_memory.md sections 5 and 8). -/
def Obligations.BlockWritesInsideTransformRegionOnly : Prop :=
  ∀ (s t : State) (a : Nat), step s = .next t → t.bufByte a ≠ s.bufByte a →
    (0x800 ≤ a ∧ a < s.len.toNat) ∨ (s.phase = .idle ∧ ∃ v rest, s.script = .poke a v :: rest ∧ t.bufByte a = v)

/-- The invariant holds right after reset. -/
def Obligations.InvariantHoldsAtReset : Prop := Inv State.reset

/-- Every step keeps the invariant, from every state that has it: BUF stays canonical, ERR a code of R22, the fields of STATUS
stay exclusive, the sequencer stays in its range and CHG in its bound. -/
def Obligations.StepKeepsInvariant : Prop :=
  ∀ s t : State, Inv s → step s = .next t → Inv t

/-- From a state of the invariant no step ends in the fault of a sequencer outside its range (43_microsteps.md section 2; log
8), the only fault the model has. -/
def Obligations.SequencerStaysInRange : Prop :=
  ∀ s : State, Inv s → step s ≠ .fault .sequencerOutOfRange

/-- A host access or reset that the tables permit answers a next state; any other is refused (10_state.md section 7;
43_microsteps.md section 4, reset among its meaningful steps). That a BUF offset at or above 2^32 is one that no table permits is
deduced from 10_state.md section 5 (log 4). The turn `command w`, a write of CMD with its WAIT, is the model's own (log 2). -/
def Obligations.HostAccessHasMeaningExactlyWhenPermitted : Prop :=
  ∀ (s : State) (t : Turn) (rest : List Turn), s.script = t :: rest → t ≠ .block → t ≠ .wait →
    (permitted t s = true → ∃ u, step s = .next u) ∧ (permitted t s = false → ∃ r, step s = .refused r)
end

