-- ==== Sys2Proof/Laws/State.lean ====
section
/-! SUPPORT. One lemma per field per update of State, and the accessors that an update leaves alone. Each proof is `(rfl)` in
brackets, so that simp rewrites with it and leaves an equation in the proof: the kernel then never unfolds a loop to see it. -/

namespace Sys2Proof.Machine

/-! setKey -/
@[simp] theorem State.setKey_key (n : Nat) (v : Byte) (s : State) : (s.setKey n v).key = s.key.set (n % 128) v (Nat.mod_lt _ (by decide)) := (rfl)
@[simp] theorem State.setKey_len (n : Nat) (v : Byte) (s : State) : (s.setKey n v).len = s.len := (rfl)
@[simp] theorem State.setKey_chg (n : Nat) (v : Byte) (s : State) : (s.setKey n v).chg = s.chg := (rfl)
@[simp] theorem State.setKey_phase (n : Nat) (v : Byte) (s : State) : (s.setKey n v).phase = s.phase := (rfl)
@[simp] theorem State.setKey_idx (n : Nat) (v : Byte) (s : State) : (s.setKey n v).idx = s.idx := (rfl)
@[simp] theorem State.setKey_cmdr (n : Nat) (v : Byte) (s : State) : (s.setKey n v).cmdr = s.cmdr := (rfl)
@[simp] theorem State.setKey_done (n : Nat) (v : Byte) (s : State) : (s.setKey n v).done = s.done := (rfl)
@[simp] theorem State.setKey_err (n : Nat) (v : Byte) (s : State) : (s.setKey n v).err = s.err := (rfl)
@[simp] theorem State.setKey_buf (n : Nat) (v : Byte) (s : State) : (s.setKey n v).buf = s.buf := (rfl)
@[simp] theorem State.setKey_script (n : Nat) (v : Byte) (s : State) : (s.setKey n v).script = s.script := (rfl)
@[simp] theorem State.setKey_seen (n : Nat) (v : Byte) (s : State) : (s.setKey n v).seen = s.seen := (rfl)
@[simp] theorem State.setKey_trace (n : Nat) (v : Byte) (s : State) : (s.setKey n v).trace = s.trace := (rfl)
@[simp] theorem State.setKey_bufByte (n : Nat) (v : Byte) (s : State) (x : Nat) : (s.setKey n v).bufByte x = s.bufByte x := (rfl)
@[simp] theorem State.setKey_busy (n : Nat) (v : Byte) (s : State) : busy (s.setKey n v) = busy s := (rfl)
@[simp] theorem State.setKey_tooShort (n : Nat) (v : Byte) (s : State) : tooShort (s.setKey n v) = tooShort s := (rfl)
@[simp] theorem State.setKey_seedOf (n : Nat) (v : Byte) (s : State) : seedOf (s.setKey n v) = seedOf s := (rfl)
@[simp] theorem State.setKey_idxInRange (n : Nat) (v : Byte) (s : State) : idxInRange (s.setKey n v) = idxInRange s := (rfl)

/-! setLen -/
@[simp] theorem State.setLen_key (v : Word) (s : State) : (s.setLen v).key = s.key := (rfl)
@[simp] theorem State.setLen_len (v : Word) (s : State) : (s.setLen v).len = v := (rfl)
@[simp] theorem State.setLen_chg (v : Word) (s : State) : (s.setLen v).chg = s.chg := (rfl)
@[simp] theorem State.setLen_phase (v : Word) (s : State) : (s.setLen v).phase = s.phase := (rfl)
@[simp] theorem State.setLen_idx (v : Word) (s : State) : (s.setLen v).idx = s.idx := (rfl)
@[simp] theorem State.setLen_cmdr (v : Word) (s : State) : (s.setLen v).cmdr = s.cmdr := (rfl)
@[simp] theorem State.setLen_done (v : Word) (s : State) : (s.setLen v).done = s.done := (rfl)
@[simp] theorem State.setLen_err (v : Word) (s : State) : (s.setLen v).err = s.err := (rfl)
@[simp] theorem State.setLen_buf (v : Word) (s : State) : (s.setLen v).buf = s.buf := (rfl)
@[simp] theorem State.setLen_script (v : Word) (s : State) : (s.setLen v).script = s.script := (rfl)
@[simp] theorem State.setLen_seen (v : Word) (s : State) : (s.setLen v).seen = s.seen := (rfl)
@[simp] theorem State.setLen_trace (v : Word) (s : State) : (s.setLen v).trace = s.trace := (rfl)
@[simp] theorem State.setLen_keyAt (v : Word) (s : State) (i : Nat) : (s.setLen v).keyAt i = s.keyAt i := (rfl)
@[simp] theorem State.setLen_bufByte (v : Word) (s : State) (x : Nat) : (s.setLen v).bufByte x = s.bufByte x := (rfl)
@[simp] theorem State.setLen_busy (v : Word) (s : State) : busy (s.setLen v) = busy s := (rfl)
@[simp] theorem State.setLen_seedOf (v : Word) (s : State) : seedOf (s.setLen v) = seedOf s := (rfl)

/-! setChg -/
@[simp] theorem State.setChg_key (v : Word) (s : State) : (s.setChg v).key = s.key := (rfl)
@[simp] theorem State.setChg_len (v : Word) (s : State) : (s.setChg v).len = s.len := (rfl)
@[simp] theorem State.setChg_chg (v : Word) (s : State) : (s.setChg v).chg = v := (rfl)
@[simp] theorem State.setChg_phase (v : Word) (s : State) : (s.setChg v).phase = s.phase := (rfl)
@[simp] theorem State.setChg_idx (v : Word) (s : State) : (s.setChg v).idx = s.idx := (rfl)
@[simp] theorem State.setChg_cmdr (v : Word) (s : State) : (s.setChg v).cmdr = s.cmdr := (rfl)
@[simp] theorem State.setChg_done (v : Word) (s : State) : (s.setChg v).done = s.done := (rfl)
@[simp] theorem State.setChg_err (v : Word) (s : State) : (s.setChg v).err = s.err := (rfl)
@[simp] theorem State.setChg_buf (v : Word) (s : State) : (s.setChg v).buf = s.buf := (rfl)
@[simp] theorem State.setChg_script (v : Word) (s : State) : (s.setChg v).script = s.script := (rfl)
@[simp] theorem State.setChg_seen (v : Word) (s : State) : (s.setChg v).seen = s.seen := (rfl)
@[simp] theorem State.setChg_trace (v : Word) (s : State) : (s.setChg v).trace = s.trace := (rfl)
@[simp] theorem State.setChg_keyAt (v : Word) (s : State) (i : Nat) : (s.setChg v).keyAt i = s.keyAt i := (rfl)
@[simp] theorem State.setChg_bufByte (v : Word) (s : State) (x : Nat) : (s.setChg v).bufByte x = s.bufByte x := (rfl)
@[simp] theorem State.setChg_busy (v : Word) (s : State) : busy (s.setChg v) = busy s := (rfl)
@[simp] theorem State.setChg_tooShort (v : Word) (s : State) : tooShort (s.setChg v) = tooShort s := (rfl)
@[simp] theorem State.setChg_seedOf (v : Word) (s : State) : seedOf (s.setChg v) = seedOf s := (rfl)
@[simp] theorem State.setChg_idxInRange (v : Word) (s : State) : idxInRange (s.setChg v) = idxInRange s := (rfl)

/-! setPhase -/
@[simp] theorem State.setPhase_key (p : Phase) (s : State) : (s.setPhase p).key = s.key := (rfl)
@[simp] theorem State.setPhase_len (p : Phase) (s : State) : (s.setPhase p).len = s.len := (rfl)
@[simp] theorem State.setPhase_chg (p : Phase) (s : State) : (s.setPhase p).chg = s.chg := (rfl)
@[simp] theorem State.setPhase_phase (p : Phase) (s : State) : (s.setPhase p).phase = p := (rfl)
@[simp] theorem State.setPhase_idx (p : Phase) (s : State) : (s.setPhase p).idx = s.idx := (rfl)
@[simp] theorem State.setPhase_cmdr (p : Phase) (s : State) : (s.setPhase p).cmdr = s.cmdr := (rfl)
@[simp] theorem State.setPhase_done (p : Phase) (s : State) : (s.setPhase p).done = s.done := (rfl)
@[simp] theorem State.setPhase_err (p : Phase) (s : State) : (s.setPhase p).err = s.err := (rfl)
@[simp] theorem State.setPhase_buf (p : Phase) (s : State) : (s.setPhase p).buf = s.buf := (rfl)
@[simp] theorem State.setPhase_script (p : Phase) (s : State) : (s.setPhase p).script = s.script := (rfl)
@[simp] theorem State.setPhase_seen (p : Phase) (s : State) : (s.setPhase p).seen = s.seen := (rfl)
@[simp] theorem State.setPhase_trace (p : Phase) (s : State) : (s.setPhase p).trace = s.trace := (rfl)
@[simp] theorem State.setPhase_keyAt (p : Phase) (s : State) (i : Nat) : (s.setPhase p).keyAt i = s.keyAt i := (rfl)
@[simp] theorem State.setPhase_bufByte (p : Phase) (s : State) (x : Nat) : (s.setPhase p).bufByte x = s.bufByte x := (rfl)
@[simp] theorem State.setPhase_tooShort (p : Phase) (s : State) : tooShort (s.setPhase p) = tooShort s := (rfl)
@[simp] theorem State.setPhase_seedOf (p : Phase) (s : State) : seedOf (s.setPhase p) = seedOf s := (rfl)

/-! setIdx -/
@[simp] theorem State.setIdx_key (v : Word) (s : State) : (s.setIdx v).key = s.key := (rfl)
@[simp] theorem State.setIdx_len (v : Word) (s : State) : (s.setIdx v).len = s.len := (rfl)
@[simp] theorem State.setIdx_chg (v : Word) (s : State) : (s.setIdx v).chg = s.chg := (rfl)
@[simp] theorem State.setIdx_phase (v : Word) (s : State) : (s.setIdx v).phase = s.phase := (rfl)
@[simp] theorem State.setIdx_idx (v : Word) (s : State) : (s.setIdx v).idx = v := (rfl)
@[simp] theorem State.setIdx_cmdr (v : Word) (s : State) : (s.setIdx v).cmdr = s.cmdr := (rfl)
@[simp] theorem State.setIdx_done (v : Word) (s : State) : (s.setIdx v).done = s.done := (rfl)
@[simp] theorem State.setIdx_err (v : Word) (s : State) : (s.setIdx v).err = s.err := (rfl)
@[simp] theorem State.setIdx_buf (v : Word) (s : State) : (s.setIdx v).buf = s.buf := (rfl)
@[simp] theorem State.setIdx_script (v : Word) (s : State) : (s.setIdx v).script = s.script := (rfl)
@[simp] theorem State.setIdx_seen (v : Word) (s : State) : (s.setIdx v).seen = s.seen := (rfl)
@[simp] theorem State.setIdx_trace (v : Word) (s : State) : (s.setIdx v).trace = s.trace := (rfl)
@[simp] theorem State.setIdx_keyAt (v : Word) (s : State) (i : Nat) : (s.setIdx v).keyAt i = s.keyAt i := (rfl)
@[simp] theorem State.setIdx_bufByte (v : Word) (s : State) (x : Nat) : (s.setIdx v).bufByte x = s.bufByte x := (rfl)
@[simp] theorem State.setIdx_busy (v : Word) (s : State) : busy (s.setIdx v) = busy s := (rfl)
@[simp] theorem State.setIdx_tooShort (v : Word) (s : State) : tooShort (s.setIdx v) = tooShort s := (rfl)
@[simp] theorem State.setIdx_seedOf (v : Word) (s : State) : seedOf (s.setIdx v) = seedOf s := (rfl)

/-! setCmdr -/
@[simp] theorem State.setCmdr_key (v : BitVec 2) (s : State) : (s.setCmdr v).key = s.key := (rfl)
@[simp] theorem State.setCmdr_len (v : BitVec 2) (s : State) : (s.setCmdr v).len = s.len := (rfl)
@[simp] theorem State.setCmdr_chg (v : BitVec 2) (s : State) : (s.setCmdr v).chg = s.chg := (rfl)
@[simp] theorem State.setCmdr_phase (v : BitVec 2) (s : State) : (s.setCmdr v).phase = s.phase := (rfl)
@[simp] theorem State.setCmdr_idx (v : BitVec 2) (s : State) : (s.setCmdr v).idx = s.idx := (rfl)
@[simp] theorem State.setCmdr_cmdr (v : BitVec 2) (s : State) : (s.setCmdr v).cmdr = v := (rfl)
@[simp] theorem State.setCmdr_done (v : BitVec 2) (s : State) : (s.setCmdr v).done = s.done := (rfl)
@[simp] theorem State.setCmdr_err (v : BitVec 2) (s : State) : (s.setCmdr v).err = s.err := (rfl)
@[simp] theorem State.setCmdr_buf (v : BitVec 2) (s : State) : (s.setCmdr v).buf = s.buf := (rfl)
@[simp] theorem State.setCmdr_script (v : BitVec 2) (s : State) : (s.setCmdr v).script = s.script := (rfl)
@[simp] theorem State.setCmdr_seen (v : BitVec 2) (s : State) : (s.setCmdr v).seen = s.seen := (rfl)
@[simp] theorem State.setCmdr_trace (v : BitVec 2) (s : State) : (s.setCmdr v).trace = s.trace := (rfl)
@[simp] theorem State.setCmdr_keyAt (v : BitVec 2) (s : State) (i : Nat) : (s.setCmdr v).keyAt i = s.keyAt i := (rfl)
@[simp] theorem State.setCmdr_bufByte (v : BitVec 2) (s : State) (x : Nat) : (s.setCmdr v).bufByte x = s.bufByte x := (rfl)
@[simp] theorem State.setCmdr_busy (v : BitVec 2) (s : State) : busy (s.setCmdr v) = busy s := (rfl)
@[simp] theorem State.setCmdr_tooShort (v : BitVec 2) (s : State) : tooShort (s.setCmdr v) = tooShort s := (rfl)
@[simp] theorem State.setCmdr_seedOf (v : BitVec 2) (s : State) : seedOf (s.setCmdr v) = seedOf s := (rfl)
@[simp] theorem State.setCmdr_idxInRange (v : BitVec 2) (s : State) : idxInRange (s.setCmdr v) = idxInRange s := (rfl)

/-! setDone -/
@[simp] theorem State.setDone_key (b : Bool) (s : State) : (s.setDone b).key = s.key := (rfl)
@[simp] theorem State.setDone_len (b : Bool) (s : State) : (s.setDone b).len = s.len := (rfl)
@[simp] theorem State.setDone_chg (b : Bool) (s : State) : (s.setDone b).chg = s.chg := (rfl)
@[simp] theorem State.setDone_phase (b : Bool) (s : State) : (s.setDone b).phase = s.phase := (rfl)
@[simp] theorem State.setDone_idx (b : Bool) (s : State) : (s.setDone b).idx = s.idx := (rfl)
@[simp] theorem State.setDone_cmdr (b : Bool) (s : State) : (s.setDone b).cmdr = s.cmdr := (rfl)
@[simp] theorem State.setDone_done (b : Bool) (s : State) : (s.setDone b).done = b := (rfl)
@[simp] theorem State.setDone_err (b : Bool) (s : State) : (s.setDone b).err = s.err := (rfl)
@[simp] theorem State.setDone_buf (b : Bool) (s : State) : (s.setDone b).buf = s.buf := (rfl)
@[simp] theorem State.setDone_script (b : Bool) (s : State) : (s.setDone b).script = s.script := (rfl)
@[simp] theorem State.setDone_seen (b : Bool) (s : State) : (s.setDone b).seen = s.seen := (rfl)
@[simp] theorem State.setDone_trace (b : Bool) (s : State) : (s.setDone b).trace = s.trace := (rfl)
@[simp] theorem State.setDone_keyAt (b : Bool) (s : State) (i : Nat) : (s.setDone b).keyAt i = s.keyAt i := (rfl)
@[simp] theorem State.setDone_bufByte (b : Bool) (s : State) (x : Nat) : (s.setDone b).bufByte x = s.bufByte x := (rfl)
@[simp] theorem State.setDone_busy (b : Bool) (s : State) : busy (s.setDone b) = busy s := (rfl)
@[simp] theorem State.setDone_tooShort (b : Bool) (s : State) : tooShort (s.setDone b) = tooShort s := (rfl)
@[simp] theorem State.setDone_seedOf (b : Bool) (s : State) : seedOf (s.setDone b) = seedOf s := (rfl)
@[simp] theorem State.setDone_idxInRange (b : Bool) (s : State) : idxInRange (s.setDone b) = idxInRange s := (rfl)

/-! setErr -/
@[simp] theorem State.setErr_key (e : BitVec 4) (s : State) : (s.setErr e).key = s.key := (rfl)
@[simp] theorem State.setErr_len (e : BitVec 4) (s : State) : (s.setErr e).len = s.len := (rfl)
@[simp] theorem State.setErr_chg (e : BitVec 4) (s : State) : (s.setErr e).chg = s.chg := (rfl)
@[simp] theorem State.setErr_phase (e : BitVec 4) (s : State) : (s.setErr e).phase = s.phase := (rfl)
@[simp] theorem State.setErr_idx (e : BitVec 4) (s : State) : (s.setErr e).idx = s.idx := (rfl)
@[simp] theorem State.setErr_cmdr (e : BitVec 4) (s : State) : (s.setErr e).cmdr = s.cmdr := (rfl)
@[simp] theorem State.setErr_done (e : BitVec 4) (s : State) : (s.setErr e).done = s.done := (rfl)
@[simp] theorem State.setErr_err (e : BitVec 4) (s : State) : (s.setErr e).err = e := (rfl)
@[simp] theorem State.setErr_buf (e : BitVec 4) (s : State) : (s.setErr e).buf = s.buf := (rfl)
@[simp] theorem State.setErr_script (e : BitVec 4) (s : State) : (s.setErr e).script = s.script := (rfl)
@[simp] theorem State.setErr_seen (e : BitVec 4) (s : State) : (s.setErr e).seen = s.seen := (rfl)
@[simp] theorem State.setErr_trace (e : BitVec 4) (s : State) : (s.setErr e).trace = s.trace := (rfl)
@[simp] theorem State.setErr_keyAt (e : BitVec 4) (s : State) (i : Nat) : (s.setErr e).keyAt i = s.keyAt i := (rfl)
@[simp] theorem State.setErr_bufByte (e : BitVec 4) (s : State) (x : Nat) : (s.setErr e).bufByte x = s.bufByte x := (rfl)
@[simp] theorem State.setErr_busy (e : BitVec 4) (s : State) : busy (s.setErr e) = busy s := (rfl)
@[simp] theorem State.setErr_tooShort (e : BitVec 4) (s : State) : tooShort (s.setErr e) = tooShort s := (rfl)
@[simp] theorem State.setErr_seedOf (e : BitVec 4) (s : State) : seedOf (s.setErr e) = seedOf s := (rfl)
@[simp] theorem State.setErr_idxInRange (e : BitVec 4) (s : State) : idxInRange (s.setErr e) = idxInRange s := (rfl)

/-! setBuf -/
@[simp] theorem State.setBuf_key (m : Memory) (s : State) : (s.setBuf m).key = s.key := (rfl)
@[simp] theorem State.setBuf_len (m : Memory) (s : State) : (s.setBuf m).len = s.len := (rfl)
@[simp] theorem State.setBuf_chg (m : Memory) (s : State) : (s.setBuf m).chg = s.chg := (rfl)
@[simp] theorem State.setBuf_phase (m : Memory) (s : State) : (s.setBuf m).phase = s.phase := (rfl)
@[simp] theorem State.setBuf_idx (m : Memory) (s : State) : (s.setBuf m).idx = s.idx := (rfl)
@[simp] theorem State.setBuf_cmdr (m : Memory) (s : State) : (s.setBuf m).cmdr = s.cmdr := (rfl)
@[simp] theorem State.setBuf_done (m : Memory) (s : State) : (s.setBuf m).done = s.done := (rfl)
@[simp] theorem State.setBuf_err (m : Memory) (s : State) : (s.setBuf m).err = s.err := (rfl)
@[simp] theorem State.setBuf_buf (m : Memory) (s : State) : (s.setBuf m).buf = m := (rfl)
@[simp] theorem State.setBuf_script (m : Memory) (s : State) : (s.setBuf m).script = s.script := (rfl)
@[simp] theorem State.setBuf_seen (m : Memory) (s : State) : (s.setBuf m).seen = s.seen := (rfl)
@[simp] theorem State.setBuf_trace (m : Memory) (s : State) : (s.setBuf m).trace = s.trace := (rfl)
@[simp] theorem State.setBuf_keyAt (m : Memory) (s : State) (i : Nat) : (s.setBuf m).keyAt i = s.keyAt i := (rfl)
@[simp] theorem State.setBuf_busy (m : Memory) (s : State) : busy (s.setBuf m) = busy s := (rfl)
@[simp] theorem State.setBuf_tooShort (m : Memory) (s : State) : tooShort (s.setBuf m) = tooShort s := (rfl)
@[simp] theorem State.setBuf_idxInRange (m : Memory) (s : State) : idxInRange (s.setBuf m) = idxInRange s := (rfl)

/-! setScript -/
@[simp] theorem State.setScript_key (ts : List Turn) (s : State) : (s.setScript ts).key = s.key := (rfl)
@[simp] theorem State.setScript_len (ts : List Turn) (s : State) : (s.setScript ts).len = s.len := (rfl)
@[simp] theorem State.setScript_chg (ts : List Turn) (s : State) : (s.setScript ts).chg = s.chg := (rfl)
@[simp] theorem State.setScript_phase (ts : List Turn) (s : State) : (s.setScript ts).phase = s.phase := (rfl)
@[simp] theorem State.setScript_idx (ts : List Turn) (s : State) : (s.setScript ts).idx = s.idx := (rfl)
@[simp] theorem State.setScript_cmdr (ts : List Turn) (s : State) : (s.setScript ts).cmdr = s.cmdr := (rfl)
@[simp] theorem State.setScript_done (ts : List Turn) (s : State) : (s.setScript ts).done = s.done := (rfl)
@[simp] theorem State.setScript_err (ts : List Turn) (s : State) : (s.setScript ts).err = s.err := (rfl)
@[simp] theorem State.setScript_buf (ts : List Turn) (s : State) : (s.setScript ts).buf = s.buf := (rfl)
@[simp] theorem State.setScript_script (ts : List Turn) (s : State) : (s.setScript ts).script = ts := (rfl)
@[simp] theorem State.setScript_seen (ts : List Turn) (s : State) : (s.setScript ts).seen = s.seen := (rfl)
@[simp] theorem State.setScript_trace (ts : List Turn) (s : State) : (s.setScript ts).trace = s.trace := (rfl)
@[simp] theorem State.setScript_keyAt (ts : List Turn) (s : State) (i : Nat) : (s.setScript ts).keyAt i = s.keyAt i := (rfl)
@[simp] theorem State.setScript_bufByte (ts : List Turn) (s : State) (x : Nat) : (s.setScript ts).bufByte x = s.bufByte x := (rfl)
@[simp] theorem State.setScript_busy (ts : List Turn) (s : State) : busy (s.setScript ts) = busy s := (rfl)
@[simp] theorem State.setScript_tooShort (ts : List Turn) (s : State) : tooShort (s.setScript ts) = tooShort s := (rfl)
@[simp] theorem State.setScript_seedOf (ts : List Turn) (s : State) : seedOf (s.setScript ts) = seedOf s := (rfl)
@[simp] theorem State.setScript_idxInRange (ts : List Turn) (s : State) : idxInRange (s.setScript ts) = idxInRange s := (rfl)

/-! pushSeen -/
@[simp] theorem State.pushSeen_key (v : Nat) (s : State) : (s.pushSeen v).key = s.key := (rfl)
@[simp] theorem State.pushSeen_len (v : Nat) (s : State) : (s.pushSeen v).len = s.len := (rfl)
@[simp] theorem State.pushSeen_chg (v : Nat) (s : State) : (s.pushSeen v).chg = s.chg := (rfl)
@[simp] theorem State.pushSeen_phase (v : Nat) (s : State) : (s.pushSeen v).phase = s.phase := (rfl)
@[simp] theorem State.pushSeen_idx (v : Nat) (s : State) : (s.pushSeen v).idx = s.idx := (rfl)
@[simp] theorem State.pushSeen_cmdr (v : Nat) (s : State) : (s.pushSeen v).cmdr = s.cmdr := (rfl)
@[simp] theorem State.pushSeen_done (v : Nat) (s : State) : (s.pushSeen v).done = s.done := (rfl)
@[simp] theorem State.pushSeen_err (v : Nat) (s : State) : (s.pushSeen v).err = s.err := (rfl)
@[simp] theorem State.pushSeen_buf (v : Nat) (s : State) : (s.pushSeen v).buf = s.buf := (rfl)
@[simp] theorem State.pushSeen_script (v : Nat) (s : State) : (s.pushSeen v).script = s.script := (rfl)
@[simp] theorem State.pushSeen_seen (v : Nat) (s : State) : (s.pushSeen v).seen = v :: s.seen := (rfl)
@[simp] theorem State.pushSeen_trace (v : Nat) (s : State) : (s.pushSeen v).trace = s.trace := (rfl)
@[simp] theorem State.pushSeen_keyAt (v : Nat) (s : State) (i : Nat) : (s.pushSeen v).keyAt i = s.keyAt i := (rfl)
@[simp] theorem State.pushSeen_bufByte (v : Nat) (s : State) (x : Nat) : (s.pushSeen v).bufByte x = s.bufByte x := (rfl)
@[simp] theorem State.pushSeen_busy (v : Nat) (s : State) : busy (s.pushSeen v) = busy s := (rfl)
@[simp] theorem State.pushSeen_tooShort (v : Nat) (s : State) : tooShort (s.pushSeen v) = tooShort s := (rfl)
@[simp] theorem State.pushSeen_seedOf (v : Nat) (s : State) : seedOf (s.pushSeen v) = seedOf s := (rfl)
@[simp] theorem State.pushSeen_idxInRange (v : Nat) (s : State) : idxInRange (s.pushSeen v) = idxInRange s := (rfl)

/-! pushTrace -/
@[simp] theorem State.pushTrace_key (e : Access) (s : State) : (s.pushTrace e).key = s.key := (rfl)
@[simp] theorem State.pushTrace_len (e : Access) (s : State) : (s.pushTrace e).len = s.len := (rfl)
@[simp] theorem State.pushTrace_chg (e : Access) (s : State) : (s.pushTrace e).chg = s.chg := (rfl)
@[simp] theorem State.pushTrace_phase (e : Access) (s : State) : (s.pushTrace e).phase = s.phase := (rfl)
@[simp] theorem State.pushTrace_idx (e : Access) (s : State) : (s.pushTrace e).idx = s.idx := (rfl)
@[simp] theorem State.pushTrace_cmdr (e : Access) (s : State) : (s.pushTrace e).cmdr = s.cmdr := (rfl)
@[simp] theorem State.pushTrace_done (e : Access) (s : State) : (s.pushTrace e).done = s.done := (rfl)
@[simp] theorem State.pushTrace_err (e : Access) (s : State) : (s.pushTrace e).err = s.err := (rfl)
@[simp] theorem State.pushTrace_buf (e : Access) (s : State) : (s.pushTrace e).buf = s.buf := (rfl)
@[simp] theorem State.pushTrace_script (e : Access) (s : State) : (s.pushTrace e).script = s.script := (rfl)
@[simp] theorem State.pushTrace_seen (e : Access) (s : State) : (s.pushTrace e).seen = s.seen := (rfl)
@[simp] theorem State.pushTrace_trace (e : Access) (s : State) : (s.pushTrace e).trace = e :: s.trace := (rfl)
@[simp] theorem State.pushTrace_keyAt (e : Access) (s : State) (i : Nat) : (s.pushTrace e).keyAt i = s.keyAt i := (rfl)
@[simp] theorem State.pushTrace_bufByte (e : Access) (s : State) (x : Nat) : (s.pushTrace e).bufByte x = s.bufByte x := (rfl)
@[simp] theorem State.pushTrace_busy (e : Access) (s : State) : busy (s.pushTrace e) = busy s := (rfl)
@[simp] theorem State.pushTrace_tooShort (e : Access) (s : State) : tooShort (s.pushTrace e) = tooShort s := (rfl)
@[simp] theorem State.pushTrace_seedOf (e : Access) (s : State) : seedOf (s.pushTrace e) = seedOf s := (rfl)
@[simp] theorem State.pushTrace_idxInRange (e : Access) (s : State) : idxInRange (s.pushTrace e) = idxInRange s := (rfl)

/-! noteRead -/
@[simp] theorem State.noteRead_key (a : Nat) (s : State) : (s.noteRead a).key = s.key := (rfl)
@[simp] theorem State.noteRead_len (a : Nat) (s : State) : (s.noteRead a).len = s.len := (rfl)
@[simp] theorem State.noteRead_chg (a : Nat) (s : State) : (s.noteRead a).chg = s.chg := (rfl)
@[simp] theorem State.noteRead_phase (a : Nat) (s : State) : (s.noteRead a).phase = s.phase := (rfl)
@[simp] theorem State.noteRead_idx (a : Nat) (s : State) : (s.noteRead a).idx = s.idx := (rfl)
@[simp] theorem State.noteRead_cmdr (a : Nat) (s : State) : (s.noteRead a).cmdr = s.cmdr := (rfl)
@[simp] theorem State.noteRead_done (a : Nat) (s : State) : (s.noteRead a).done = s.done := (rfl)
@[simp] theorem State.noteRead_err (a : Nat) (s : State) : (s.noteRead a).err = s.err := (rfl)
@[simp] theorem State.noteRead_buf (a : Nat) (s : State) : (s.noteRead a).buf = s.buf := (rfl)
@[simp] theorem State.noteRead_script (a : Nat) (s : State) : (s.noteRead a).script = s.script := (rfl)
@[simp] theorem State.noteRead_seen (a : Nat) (s : State) : (s.noteRead a).seen = s.seen := (rfl)
@[simp] theorem State.noteRead_trace (a : Nat) (s : State) : (s.noteRead a).trace = .memRead a (s.bufByte a) :: s.trace := (rfl)
@[simp] theorem State.noteRead_keyAt (a : Nat) (s : State) (i : Nat) : (s.noteRead a).keyAt i = s.keyAt i := (rfl)
@[simp] theorem State.noteRead_bufByte (a : Nat) (s : State) (x : Nat) : (s.noteRead a).bufByte x = s.bufByte x := (rfl)

/-! memWrite -/
@[simp] theorem State.memWrite_key (a : Nat) (v : Byte) (s : State) : (s.memWrite a v).key = s.key := (rfl)
@[simp] theorem State.memWrite_len (a : Nat) (v : Byte) (s : State) : (s.memWrite a v).len = s.len := (rfl)
@[simp] theorem State.memWrite_chg (a : Nat) (v : Byte) (s : State) : (s.memWrite a v).chg = s.chg := (rfl)
@[simp] theorem State.memWrite_phase (a : Nat) (v : Byte) (s : State) : (s.memWrite a v).phase = s.phase := (rfl)
@[simp] theorem State.memWrite_idx (a : Nat) (v : Byte) (s : State) : (s.memWrite a v).idx = s.idx := (rfl)
@[simp] theorem State.memWrite_cmdr (a : Nat) (v : Byte) (s : State) : (s.memWrite a v).cmdr = s.cmdr := (rfl)
@[simp] theorem State.memWrite_done (a : Nat) (v : Byte) (s : State) : (s.memWrite a v).done = s.done := (rfl)
@[simp] theorem State.memWrite_err (a : Nat) (v : Byte) (s : State) : (s.memWrite a v).err = s.err := (rfl)
@[simp] theorem State.memWrite_buf (a : Nat) (v : Byte) (s : State) : (s.memWrite a v).buf = s.buf.write a v := (rfl)
@[simp] theorem State.memWrite_script (a : Nat) (v : Byte) (s : State) : (s.memWrite a v).script = s.script := (rfl)
@[simp] theorem State.memWrite_seen (a : Nat) (v : Byte) (s : State) : (s.memWrite a v).seen = s.seen := (rfl)
@[simp] theorem State.memWrite_trace (a : Nat) (v : Byte) (s : State) : (s.memWrite a v).trace = .memWrite a v :: s.trace := (rfl)
@[simp] theorem State.memWrite_keyAt (a : Nat) (v : Byte) (s : State) (i : Nat) : (s.memWrite a v).keyAt i = s.keyAt i := (rfl)

/-! writeKey -/
@[simp] theorem State.writeKey_key (n : Nat) (v : Byte) (s : State) : (s.writeKey n v).key = s.key.set (n % 128) v (Nat.mod_lt _ (by decide)) := (rfl)
@[simp] theorem State.writeKey_len (n : Nat) (v : Byte) (s : State) : (s.writeKey n v).len = s.len := (rfl)
@[simp] theorem State.writeKey_chg (n : Nat) (v : Byte) (s : State) : (s.writeKey n v).chg = s.chg := (rfl)
@[simp] theorem State.writeKey_phase (n : Nat) (v : Byte) (s : State) : (s.writeKey n v).phase = s.phase := (rfl)
@[simp] theorem State.writeKey_idx (n : Nat) (v : Byte) (s : State) : (s.writeKey n v).idx = s.idx := (rfl)
@[simp] theorem State.writeKey_cmdr (n : Nat) (v : Byte) (s : State) : (s.writeKey n v).cmdr = s.cmdr := (rfl)
@[simp] theorem State.writeKey_done (n : Nat) (v : Byte) (s : State) : (s.writeKey n v).done = s.done := (rfl)
@[simp] theorem State.writeKey_err (n : Nat) (v : Byte) (s : State) : (s.writeKey n v).err = s.err := (rfl)
@[simp] theorem State.writeKey_buf (n : Nat) (v : Byte) (s : State) : (s.writeKey n v).buf = s.buf := (rfl)
@[simp] theorem State.writeKey_script (n : Nat) (v : Byte) (s : State) : (s.writeKey n v).script = s.script := (rfl)
@[simp] theorem State.writeKey_seen (n : Nat) (v : Byte) (s : State) : (s.writeKey n v).seen = s.seen := (rfl)
@[simp] theorem State.writeKey_trace (n : Nat) (v : Byte) (s : State) : (s.writeKey n v).trace = .keyWrite n v :: s.trace := (rfl)
@[simp] theorem State.writeKey_bufByte (n : Nat) (v : Byte) (s : State) (x : Nat) : (s.writeKey n v).bufByte x = s.bufByte x := (rfl)

/-! Key registers and BUF bytes read back what was written -/

theorem State.setKey_keyAt_same (n : Nat) (v : Byte) (s : State) : (s.setKey n v).keyAt n = v := by
  simp [State.keyAt]

theorem State.setKey_keyAt_ne (n i : Nat) (v : Byte) (s : State) (h : n % 128 ≠ i % 128) :
    (s.setKey n v).keyAt i = s.keyAt i := by
  simp [State.keyAt, h]

theorem State.writeKey_keyAt_same (n : Nat) (v : Byte) (s : State) : (s.writeKey n v).keyAt n = v :=
  s.setKey_keyAt_same n v

theorem State.writeKey_keyAt_ne (n i : Nat) (v : Byte) (s : State) (h : n % 128 ≠ i % 128) :
    (s.writeKey n v).keyAt i = s.keyAt i :=
  s.setKey_keyAt_ne n i v h

/-- Two key files are equal when every key register reads the same. -/
theorem key_ext_keyAt (s t : State) (h : ∀ n, n < 128 → s.keyAt n = t.keyAt n) : s.key = t.key := by
  refine Vector.ext fun n hn => ?_
  simpa [State.keyAt, Nat.mod_eq_of_lt hn] using h n hn

end Sys2Proof.Machine
end

