-- ==== Sys2Proof/Laws/Memory.lean ====
section
/-! SUPPORT. The laws of BUF: a byte reads back what was written, other bytes are left alone, the canonical form is kept. -/

namespace Sys2Proof.Machine

theorem Memory.read?_write_same (m : Memory) (a : Nat) (v : Byte) : (m.write a v).read? a = some v := by
  induction m with
  | nil => simp [Memory.write, Memory.read?]
  | cons c rest ih =>
    simp only [Memory.write]
    split
    · rename_i h
      simp [Memory.read?, ih, Nat.ne_of_lt h]
    · split <;> simp [Memory.read?]

theorem Memory.read?_write_ne (m : Memory) (a x : Nat) (v : Byte) (h : x ≠ a) :
    (m.write a v).read? x = m.read? x := by
  induction m with
  | nil => simp [Memory.write, Memory.read?, h.symm]
  | cons c rest ih =>
    simp only [Memory.write]
    split
    · simp [Memory.read?, ih]
    · split
      · rename_i h1
        simp [Memory.read?, h1, h.symm]
      · simp [Memory.read?, h.symm]

/-- Where a write puts its entry: every offset listed afterwards was listed before or is the one written. -/
theorem Memory.mem_write (m : Memory) (a : Nat) (v : Byte) (d : Host.Cell) (h : d ∈ m.write a v) :
    d ∈ m ∨ d = (a, v) := by
  induction m with
  | nil => simpa [Memory.write] using h
  | cons c rest ih =>
    simp only [Memory.write] at h
    split at h
    · rcases List.mem_cons.1 h with rfl | h
      · exact .inl (by simp)
      · rcases ih h with h | h
        · exact .inl (by simp [h])
        · exact .inr h
    · split at h <;> simp at h ⊢ <;> tauto

/-- A write inside the buffer space keeps the canonical form (log 3). -/
theorem Memory.write_wf (m : Memory) (a : Nat) (v : Byte) (hm : m.wf = true) (ha : a < Config.bufSize) :
    (m.write a v).wf = true := by
  induction m with
  | nil => simpa [Memory.write, Memory.wf] using ha
  | cons c rest ih =>
    simp only [Memory.wf, Bool.and_eq_true, decide_eq_true_eq, List.all_eq_true] at hm
    obtain ⟨⟨hc, hall⟩, hrest⟩ := hm
    simp only [Memory.write]
    split
    · rename_i hlt
      simp only [Memory.wf, Bool.and_eq_true, decide_eq_true_eq, List.all_eq_true]
      refine ⟨⟨hc, fun d hd => ?_⟩, ih hrest⟩
      rcases Memory.mem_write rest a v d hd with h | h
      · exact hall d h
      · simpa [h] using hlt
    · split
      · rename_i heq
        subst heq
        simp only [Memory.wf, Bool.and_eq_true, decide_eq_true_eq, List.all_eq_true]
        exact ⟨⟨ha, hall⟩, hrest⟩
      · rename_i h1 h2
        have hac : a < c.1 := by omega
        simp only [Memory.wf, Bool.and_eq_true, decide_eq_true_eq, List.all_eq_true]
        refine ⟨⟨ha, fun d hd => ?_⟩, ⟨hc, hall⟩, hrest⟩
        rcases List.mem_cons.1 hd with rfl | hd
        · exact hac
        · exact Nat.lt_trans hac (hall d hd)

/-- In a canonical memory no offset up to the first entry is listed after it. -/
theorem Memory.read?_tail_none (c : Host.Cell) (rest : Memory) (h : Memory.wf (c :: rest) = true) (x : Nat)
    (hx : x ≤ c.1) : rest.read? x = none := by
  simp only [Memory.wf, Bool.and_eq_true, decide_eq_true_eq, List.all_eq_true] at h
  obtain ⟨⟨-, hall⟩, -⟩ := h
  induction rest with
  | nil => rfl
  | cons d rest ih =>
    have hd : c.1 < d.1 := hall d (by simp)
    have : d.1 ≠ x := by omega
    simp only [Memory.read?, this, if_false]
    exact ih fun e he => hall e (by simp [he])

theorem State.memWrite_bufByte (s : State) (a x : Nat) (v : Byte) :
    (s.memWrite a v).bufByte x = if x = a then v else s.bufByte x := by
  unfold State.bufByte
  split
  · rename_i h
    simp [h, Memory.read?_write_same]
  · rename_i h
    simp [Memory.read?_write_ne _ _ _ _ h]

theorem State.setBuf_write_bufByte (s : State) (a x : Nat) (v : Byte) :
    (s.setBuf (s.buf.write a v)).bufByte x = if x = a then v else s.bufByte x :=
  s.memWrite_bufByte a x v

theorem reset_buf_wf : State.reset.buf.wf = true := rfl

end Sys2Proof.Machine
end

