-- ==== Sys2Proof/Laws/KeyExpander.lean ====
section
/-! SUPPORT. What the expansion's body and loop can do, said once. -/

namespace Sys2Proof.Machine

/-- The value the expansion writes at index `n` (R57). -/
theorem expandAt_eq_writeKey (n : Nat) (s : State) :
    ∃ v, expandAt n s = (if n < 16 then s.noteRead (0x400 + n) else s).writeKey n v := by
  by_cases h : n < 16
  · exact ⟨s.bufByte (0x400 + n), by rw [if_pos h]; exact if_pos h⟩
  · by_cases h2 : n % 16 < 8
    · exact ⟨rol8 (s.keyAt (n - 16)), by rw [if_neg h]; exact (if_neg h).trans (if_pos h2)⟩
    · exact ⟨ror8 (s.keyAt (n - 16)), by rw [if_neg h]; exact (if_neg h).trans (if_neg h2)⟩

/-! The expansion's body changes only K and the event history. -/

@[simp] theorem expandAt_len (n : Nat) (s : State) : (expandAt n s).len = s.len := by
  unfold expandAt; split <;> (try split) <;> rfl
@[simp] theorem expandAt_chg (n : Nat) (s : State) : (expandAt n s).chg = s.chg := by
  unfold expandAt; split <;> (try split) <;> rfl
@[simp] theorem expandAt_phase (n : Nat) (s : State) : (expandAt n s).phase = s.phase := by
  unfold expandAt; split <;> (try split) <;> rfl
@[simp] theorem expandAt_idx (n : Nat) (s : State) : (expandAt n s).idx = s.idx := by
  unfold expandAt; split <;> (try split) <;> rfl
@[simp] theorem expandAt_cmdr (n : Nat) (s : State) : (expandAt n s).cmdr = s.cmdr := by
  unfold expandAt; split <;> (try split) <;> rfl
@[simp] theorem expandAt_done (n : Nat) (s : State) : (expandAt n s).done = s.done := by
  unfold expandAt; split <;> (try split) <;> rfl
@[simp] theorem expandAt_err (n : Nat) (s : State) : (expandAt n s).err = s.err := by
  unfold expandAt; split <;> (try split) <;> rfl
@[simp] theorem expandAt_buf (n : Nat) (s : State) : (expandAt n s).buf = s.buf := by
  unfold expandAt; split <;> (try split) <;> rfl
@[simp] theorem expandAt_script (n : Nat) (s : State) : (expandAt n s).script = s.script := by
  unfold expandAt; split <;> (try split) <;> rfl
@[simp] theorem expandAt_seen (n : Nat) (s : State) : (expandAt n s).seen = s.seen := by
  unfold expandAt; split <;> (try split) <;> rfl
@[simp] theorem expandAt_bufByte (n : Nat) (s : State) (x : Nat) : (expandAt n s).bufByte x = s.bufByte x := by
  simp [State.bufByte]
@[simp] theorem expandAt_seedOf (n : Nat) (s : State) : seedOf (expandAt n s) = seedOf s := by
  simp [seedOf]

/-- A key register other than `n` keeps its value. -/
theorem expandAt_keyAt_ne (n i : Nat) (s : State) (h : n % 128 ≠ i % 128) :
    (expandAt n s).keyAt i = s.keyAt i := by
  obtain ⟨v, hv⟩ := expandAt_eq_writeKey n s
  rw [hv, State.writeKey_keyAt_ne _ _ _ _ h]
  split <;> simp

theorem seedOf_getElem (s : State) (n : Nat) (h : n < 16) : (seedOf s)[n] = s.bufByte (0x400 + n) := by
  simp [seedOf]

/-- Key register `n` gets byte `n` of the expanded key, if those before it hold theirs (R56, R87). -/
theorem expandAt_keyAt_same (n : Nat) (s : State) (hn : n < 128)
    (h : ∀ i, i < n → s.keyAt i = expandByte (seedOf s) (i / 16) (i % 16)) :
    (expandAt n s).keyAt n = expandByte (seedOf s) (n / 16) (n % 16) := by
  unfold expandAt
  split
  · rename_i hlt
    have h0 : n / 16 = 0 := Nat.div_eq_of_lt hlt
    simp only [State.writeKey_keyAt_same, h0, expandByte, Nat.mod_mod]
    rw [seedOf_getElem _ _ (Nat.mod_lt _ (by decide)), Nat.mod_eq_of_lt hlt]
  · rename_i hge
    have hge : 16 ≤ n := by simpa using hge
    obtain ⟨g, hg⟩ : ∃ g, n / 16 = g + 1 := ⟨n / 16 - 1, by omega⟩
    have hprev := h (n - 16) (by omega)
    rw [show (n - 16) / 16 = g by omega, show (n - 16) % 16 = n % 16 by omega] at hprev
    simp only [hg, expandByte]
    split <;> simp [State.writeKey_keyAt_same, hprev]

/-! The loop. -/

@[simp] theorem expandLoop_len (c n : Nat) (s : State) : (expandLoop c n s).len = s.len := by
  induction c generalizing n s <;> simp [expandLoop, *]
@[simp] theorem expandLoop_chg (c n : Nat) (s : State) : (expandLoop c n s).chg = s.chg := by
  induction c generalizing n s <;> simp [expandLoop, *]
@[simp] theorem expandLoop_phase (c n : Nat) (s : State) : (expandLoop c n s).phase = s.phase := by
  induction c generalizing n s <;> simp [expandLoop, *]
@[simp] theorem expandLoop_idx (c n : Nat) (s : State) : (expandLoop c n s).idx = s.idx := by
  induction c generalizing n s <;> simp [expandLoop, *]
@[simp] theorem expandLoop_cmdr (c n : Nat) (s : State) : (expandLoop c n s).cmdr = s.cmdr := by
  induction c generalizing n s <;> simp [expandLoop, *]
@[simp] theorem expandLoop_done (c n : Nat) (s : State) : (expandLoop c n s).done = s.done := by
  induction c generalizing n s <;> simp [expandLoop, *]
@[simp] theorem expandLoop_err (c n : Nat) (s : State) : (expandLoop c n s).err = s.err := by
  induction c generalizing n s <;> simp [expandLoop, *]
@[simp] theorem expandLoop_buf (c n : Nat) (s : State) : (expandLoop c n s).buf = s.buf := by
  induction c generalizing n s <;> simp [expandLoop, *]
@[simp] theorem expandLoop_script (c n : Nat) (s : State) : (expandLoop c n s).script = s.script := by
  induction c generalizing n s <;> simp [expandLoop, *]
@[simp] theorem expandLoop_seen (c n : Nat) (s : State) : (expandLoop c n s).seen = s.seen := by
  induction c generalizing n s <;> simp [expandLoop, *]
@[simp] theorem expandLoop_bufByte (c n : Nat) (s : State) (x : Nat) :
    (expandLoop c n s).bufByte x = s.bufByte x := by
  simp [State.bufByte]
@[simp] theorem expandLoop_seedOf (c n : Nat) (s : State) : seedOf (expandLoop c n s) = seedOf s := by
  simp [seedOf]

theorem expandLoop_succ_last (c n : Nat) (s : State) :
    expandLoop (c + 1) n s = expandAt (n + c) (expandLoop c n s) := by
  induction c generalizing n s with
  | zero => rfl
  | succ c ih =>
    rw [expandLoop, ih]
    simp [expandLoop, Nat.add_comm, Nat.add_left_comm]

/-- After the first `c` indices the first `c` key registers hold the expanded key (R87). -/
theorem expandLoop_keyAt (c : Nat) (hc : c ≤ 128) (s : State) :
    ∀ i, i < c → (expandLoop c 0 s).keyAt i = expandByte (seedOf s) (i / 16) (i % 16) := by
  induction c with
  | zero => intro i hi; omega
  | succ c ih =>
    intro i hi
    have ih := ih (by omega)
    rw [expandLoop_succ_last]
    simp only [Nat.zero_add]
    by_cases h : i = c
    · subst h
      have := expandAt_keyAt_same i (expandLoop i 0 s) (by omega) (by simpa using ih)
      simpa using this
    · rw [expandAt_keyAt_ne _ _ _ (by omega)]
      exact ih i (by omega)

/-- The loop works on K and the event history only: every other field but BUF may be changed before or after it. -/
theorem expandLoop_control (c n : Nat) (s : State) (l g : Word) (p : Phase) (x : Word) (m : BitVec 2) (d : Bool)
    (e : BitVec 4) (ts : List Turn) (vs : List Nat) :
    expandLoop c n { s with len := l, chg := g, phase := p, idx := x, cmdr := m, done := d, err := e, script := ts, seen := vs } =
      { expandLoop c n s with
        len := l, chg := g, phase := p, idx := x, cmdr := m, done := d, err := e, script := ts, seen := vs } := by
  induction c generalizing n s with
  | zero => rfl
  | succ c ih =>
    have h : expandAt n
        { s with len := l, chg := g, phase := p, idx := x, cmdr := m, done := d, err := e, script := ts, seen := vs } =
        { expandAt n s with
          len := l, chg := g, phase := p, idx := x, cmdr := m, done := d, err := e, script := ts, seen := vs } := by
      unfold expandAt State.noteRead State.bufByte State.keyAt
      split
      · rfl
      · split <;> rfl
    simp only [expandLoop, h, ih]

/-- The whole loop leaves K = expand(seed) (R57, R87). -/
theorem expandLoop_key (s : State) : (expandLoop 128 0 s).key = expand (seedOf s) := by
  refine Vector.ext fun n hn => ?_
  have := expandLoop_keyAt 128 (Nat.le_refl _) s n hn
  simpa [State.keyAt, Nat.mod_eq_of_lt hn, expand] using this

end Sys2Proof.Machine
end

