-- ==== Sys2Proof/Laws/SelectiveXor.lean ====
section
/-! SUPPORT. What the transform's body and loop can do, said once. -/

namespace Sys2Proof.Machine

theorem isSentinel_iff (v : Byte) : isSentinel v = true ↔ v = 0x00#8 ∨ v = 0xFF#8 := by
  simp [isSentinel]

/-- The body at one index: a skipped index leaves only the read in the history, any other is stored (R65, R88). -/
theorem xorAt_cases (i : Nat) (s : State) :
    (xorAt i s = s.noteRead i ∧ xf (s.bufByte i) (s.keyAt i) = s.bufByte i) ∨
    (xorAt i s = (s.noteRead i).memWrite i (xf (s.bufByte i) (s.keyAt i)) ∧
      xf (s.bufByte i) (s.keyAt i) = s.bufByte i) ∨
    (xorAt i s = ((s.noteRead i).memWrite i (xf (s.bufByte i) (s.keyAt i))).setChg (s.chg + 1#32) ∧
      xf (s.bufByte i) (s.keyAt i) ≠ s.bufByte i) := by
  unfold xorAt xf
  by_cases h1 : isSentinel (s.bufByte i) = true
  · simp [h1]
  · by_cases h2 : isSentinel (s.bufByte i ^^^ s.keyAt i) = true
    · simp [h1, h2]
    · by_cases h3 : s.bufByte i ^^^ s.keyAt i = s.bufByte i
      · simp [h1, h3]
      · simp [h1, h2, h3]

@[simp] theorem xorAt_key (i : Nat) (s : State) : (xorAt i s).key = s.key := by
  obtain ⟨h, _⟩ | ⟨h, _⟩ | ⟨h, _⟩ := xorAt_cases i s <;> simp [h]
@[simp] theorem xorAt_len (i : Nat) (s : State) : (xorAt i s).len = s.len := by
  obtain ⟨h, _⟩ | ⟨h, _⟩ | ⟨h, _⟩ := xorAt_cases i s <;> simp [h]
@[simp] theorem xorAt_phase (i : Nat) (s : State) : (xorAt i s).phase = s.phase := by
  obtain ⟨h, _⟩ | ⟨h, _⟩ | ⟨h, _⟩ := xorAt_cases i s <;> simp [h]
@[simp] theorem xorAt_idx (i : Nat) (s : State) : (xorAt i s).idx = s.idx := by
  obtain ⟨h, _⟩ | ⟨h, _⟩ | ⟨h, _⟩ := xorAt_cases i s <;> simp [h]
@[simp] theorem xorAt_cmdr (i : Nat) (s : State) : (xorAt i s).cmdr = s.cmdr := by
  obtain ⟨h, _⟩ | ⟨h, _⟩ | ⟨h, _⟩ := xorAt_cases i s <;> simp [h]
@[simp] theorem xorAt_done (i : Nat) (s : State) : (xorAt i s).done = s.done := by
  obtain ⟨h, _⟩ | ⟨h, _⟩ | ⟨h, _⟩ := xorAt_cases i s <;> simp [h]
@[simp] theorem xorAt_err (i : Nat) (s : State) : (xorAt i s).err = s.err := by
  obtain ⟨h, _⟩ | ⟨h, _⟩ | ⟨h, _⟩ := xorAt_cases i s <;> simp [h]
@[simp] theorem xorAt_script (i : Nat) (s : State) : (xorAt i s).script = s.script := by
  obtain ⟨h, _⟩ | ⟨h, _⟩ | ⟨h, _⟩ := xorAt_cases i s <;> simp [h]
@[simp] theorem xorAt_seen (i : Nat) (s : State) : (xorAt i s).seen = s.seen := by
  obtain ⟨h, _⟩ | ⟨h, _⟩ | ⟨h, _⟩ := xorAt_cases i s <;> simp [h]
@[simp] theorem xorAt_keyAt (i : Nat) (s : State) (n : Nat) : (xorAt i s).keyAt n = s.keyAt n := by
  simp [State.keyAt]

/-- BUF at every offset after one index: `xf` at that index, unchanged elsewhere (R64, R76). -/
theorem xorAt_bufByte (i x : Nat) (s : State) :
    (xorAt i s).bufByte x = if x = i then xf (s.bufByte i) (s.keyAt i) else s.bufByte x := by
  obtain ⟨h, e⟩ | ⟨h, e⟩ | ⟨h, e⟩ := xorAt_cases i s
  · rw [h]
    split <;> simp_all
  · simp [h, State.memWrite_bufByte]
  · simp [h, State.memWrite_bufByte]

/-- `CHG` counts exactly a change of value (R68). -/
theorem xorAt_chg (i : Nat) (s : State) :
    (xorAt i s).chg = if xf (s.bufByte i) (s.keyAt i) = s.bufByte i then s.chg else s.chg + 1#32 := by
  obtain ⟨h, e⟩ | ⟨h, e⟩ | ⟨h, e⟩ := xorAt_cases i s <;> simp [h, e]

theorem xorAt_bufWf (i : Nat) (s : State) (hi : i < Config.bufSize) (hw : s.buf.wf = true) :
    (xorAt i s).buf.wf = true := by
  obtain ⟨h, _⟩ | ⟨h, _⟩ | ⟨h, _⟩ := xorAt_cases i s <;> simp [h, hw, Memory.write_wf _ _ _ hw hi]

/-! The loop. -/

@[simp] theorem xorLoop_key (c i : Nat) (s : State) : (xorLoop c i s).key = s.key := by
  induction c generalizing i s <;> simp [xorLoop, *]
@[simp] theorem xorLoop_len (c i : Nat) (s : State) : (xorLoop c i s).len = s.len := by
  induction c generalizing i s <;> simp [xorLoop, *]
@[simp] theorem xorLoop_phase (c i : Nat) (s : State) : (xorLoop c i s).phase = s.phase := by
  induction c generalizing i s <;> simp [xorLoop, *]
@[simp] theorem xorLoop_idx (c i : Nat) (s : State) : (xorLoop c i s).idx = s.idx := by
  induction c generalizing i s <;> simp [xorLoop, *]
@[simp] theorem xorLoop_cmdr (c i : Nat) (s : State) : (xorLoop c i s).cmdr = s.cmdr := by
  induction c generalizing i s <;> simp [xorLoop, *]
@[simp] theorem xorLoop_done (c i : Nat) (s : State) : (xorLoop c i s).done = s.done := by
  induction c generalizing i s <;> simp [xorLoop, *]
@[simp] theorem xorLoop_err (c i : Nat) (s : State) : (xorLoop c i s).err = s.err := by
  induction c generalizing i s <;> simp [xorLoop, *]
@[simp] theorem xorLoop_script (c i : Nat) (s : State) : (xorLoop c i s).script = s.script := by
  induction c generalizing i s <;> simp [xorLoop, *]
@[simp] theorem xorLoop_seen (c i : Nat) (s : State) : (xorLoop c i s).seen = s.seen := by
  induction c generalizing i s <;> simp [xorLoop, *]
@[simp] theorem xorLoop_keyAt (c i : Nat) (s : State) (n : Nat) : (xorLoop c i s).keyAt n = s.keyAt n := by
  simp [State.keyAt]

theorem xorLoop_succ_last (c i : Nat) (s : State) :
    xorLoop (c + 1) i s = xorAt (i + c) (xorLoop c i s) := by
  induction c generalizing i s with
  | zero => rfl
  | succ c ih =>
    rw [xorLoop, ih]
    simp [xorLoop, Nat.add_comm, Nat.add_left_comm]

/-- BUF at every offset after `c` indices from `i` (R65). -/
theorem xorLoop_bufByte (c i x : Nat) (s : State) :
    (xorLoop c i s).bufByte x =
      if i ≤ x ∧ x < i + c then xf (s.bufByte x) (s.keyAt x) else s.bufByte x := by
  induction c with
  | zero =>
    simp [xorLoop]
  | succ c ih =>
    rw [xorLoop_succ_last, xorAt_bufByte]
    by_cases h : x = i + c
    · subst h
      have h1 : ¬ (i ≤ i + c ∧ i + c < i + c) := by omega
      have h2 : i ≤ i + c ∧ i + c < i + (c + 1) := by omega
      rw [if_pos rfl, if_pos h2, ih, if_neg h1]
      simp
    · rw [if_neg h, ih]
      have : (i ≤ x ∧ x < i + c) ↔ (i ≤ x ∧ x < i + (c + 1)) := by omega
      simp [this]

theorem xorLoop_bufWf (c i : Nat) (s : State) (hi : i + c ≤ Config.bufSize) (hw : s.buf.wf = true) :
    (xorLoop c i s).buf.wf = true := by
  induction c with
  | zero => exact hw
  | succ c ih =>
    rw [xorLoop_succ_last]
    exact xorAt_bufWf _ _ (by omega) (ih (by omega))

/-- `CHG` after a pass that starts with 0 is the number of indices whose value changes (R68); it cannot overflow (R24). -/
theorem xorLoop_chg_toNat (c i : Nat) (s : State) (hs : s.chg = 0#32) (hc : c < 2 ^ 32) :
    (xorLoop c i s).chg.toNat =
      (List.range' i c).countP (fun x => xf (s.bufByte x) (s.keyAt x) != s.bufByte x) := by
  induction c with
  | zero => simp [xorLoop, hs]
  | succ c ih =>
    have ih := ih (by omega)
    have hle := List.countP_le_length (l := List.range' i c) (p := fun x => xf (s.bufByte x) (s.keyAt x) != s.bufByte x)
    rw [List.length_range'] at hle
    have hlast : ¬ (i ≤ i + c ∧ i + c < i + c) := by omega
    rw [xorLoop_succ_last, xorAt_chg, xorLoop_bufByte, List.range'_1_concat, List.countP_append]
    simp only [hlast, if_false, xorLoop_keyAt]
    by_cases h : xf (s.bufByte (i + c)) (s.keyAt (i + c)) = s.bufByte (i + c)
    · simp [h, ih]
    · simp [h, ih]
      omega

/-- The events of one index (R65, R88). -/
theorem xorAt_trace (i : Nat) (s : State) :
    (xorAt i s).trace =
      (if !isSentinel (s.bufByte i) && !isSentinel (s.bufByte i ^^^ s.keyAt i) then
        [Access.memWrite i (s.bufByte i ^^^ s.keyAt i)] else []) ++ .memRead i (s.bufByte i) :: s.trace := by
  unfold xorAt
  by_cases h1 : isSentinel (s.bufByte i) = true
  · simp [h1]
  · by_cases h2 : isSentinel (s.bufByte i ^^^ s.keyAt i) = true
    · simp [h1, h2]
    · simp only [h1, h2]
      by_cases h3 : (s.bufByte i ^^^ s.keyAt i != s.bufByte i) = true <;> simp [h3]

/-- The loop works on K, BUF, CHG and the event history only: every other field may be changed before or after it. -/
theorem xorLoop_control (c i : Nat) (s : State) (p : Phase) (x : Word) (m : BitVec 2) (d : Bool) (e : BitVec 4)
    (ts : List Turn) (vs : List Nat) :
    xorLoop c i { s with phase := p, idx := x, cmdr := m, done := d, err := e, script := ts, seen := vs } =
      { xorLoop c i s with phase := p, idx := x, cmdr := m, done := d, err := e, script := ts, seen := vs } := by
  induction c generalizing i s with
  | zero => rfl
  | succ c ih =>
    have h : xorAt i { s with phase := p, idx := x, cmdr := m, done := d, err := e, script := ts, seen := vs } =
        { xorAt i s with phase := p, idx := x, cmdr := m, done := d, err := e, script := ts, seen := vs } := by
      unfold xorAt State.noteRead State.bufByte State.keyAt
      simp only
      split
      · rfl
      · split
        · rfl
        · split <;> rfl
    simp only [xorLoop, h, ih]

/-- A second pass over the same indices with the same key meets the bytes the first pass left. -/
theorem xorLoop_xorLoop_bufByte (c i x : Nat) (s t : State) (hb : ∀ y, t.bufByte y = (xorLoop c i s).bufByte y)
    (hk : ∀ n, t.keyAt n = s.keyAt n) :
    (xorLoop c i t).bufByte x =
      if i ≤ x ∧ x < i + c then xf (xf (s.bufByte x) (s.keyAt x)) (s.keyAt x) else s.bufByte x := by
  rw [xorLoop_bufByte, hb, hk, xorLoop_bufByte]
  split <;> rfl

end Sys2Proof.Machine
end

