-- ==== Sys2Proof/Laws/Ops.lean ====
section
/-! SUPPORT. What presenting a word can do, said once; the spec lemmas of the whole phases. -/

namespace Sys2Proof.Machine

/-- A presented word is refused while busy, ignored while faulted, else has its own effect on the state with `DONE` cleared. -/
theorem present_cases (act : State → State) (s : State) :
    (busy s = true ∧ present act s = .refused .accessWhileBusy) ∨
    (busy s = false ∧ s.err ≠ 0#4 ∧ present act s = .next s) ∨
    (busy s = false ∧ s.err = 0#4 ∧ present act s = .next (act (s.setDone false))) := by
  unfold present
  by_cases hb : busy s = true
  · simp [hb]
  · by_cases he : s.err = 0#4 <;> simp [hb, he]

theorem busy_eq_false_iff (s : State) : busy s = false ↔ s.phase = .idle := by
  simp [busy]

theorem busy_eq_true_iff (s : State) : busy s = true ↔ s.phase ≠ .idle := by
  simp [busy]

/-- In a ready state a presented word has its effect. -/
theorem present_ready (act : State → State) (s : State) (hp : s.phase = .idle) (he : s.err = 0#4) :
    present act s = .next (act (s.setDone false)) := by
  simp [present, busy, hp, he]

/-- While a fault is recorded a presented word is ignored (R102). -/
theorem present_faulted (act : State → State) (s : State) (hp : s.phase = .idle) (he : s.err ≠ 0#4) :
    present act s = .next s := by
  simp [present, busy, hp, he]

theorem tooShort_iff (s : State) : tooShort s = true ↔ s.len.toNat < 0x410 := by
  simp [tooShort]

theorem withLengthCheck_short (act : State → State) (s : State) (h : s.len.toNat < 0x410) :
    withLengthCheck act s = raiseFault insufficientLength s := by
  simp [withLengthCheck, (tooShort_iff s).2 h]

theorem withLengthCheck_long (act : State → State) (s : State) (h : 0x410 ≤ s.len.toNat) :
    withLengthCheck act s = act s := by
  have : ¬ tooShort s = true := by rw [tooShort_iff]; omega
  simp [withLengthCheck, this]

/-! Fault entry, phase changes: one lemma per field is by the lemmas of Laws/State. -/

theorem raiseFault_eq (c : BitVec 4) (s : State) : raiseFault c s = { s with done := false, err := c } := rfl

theorem enterXor_eq (s : State) : enterXor s = { s with phase := .xor, idx := 0x800#32, chg := 0#32 } := rfl

theorem complete_eq (s : State) : complete s = { s with phase := .idle, done := true } := rfl

/-! The whole expansion and the whole transform. -/

theorem expandKey_key (s : State) : (expandKey s).key = expand (seedOf s) := by
  simp [expandKey, expandLoop_key]

theorem transformImage_bufByte (s : State) (x : Nat) :
    (transformImage s).bufByte x =
      if 0x800 ≤ x ∧ x < s.len.toNat then xf (s.bufByte x) (s.keyAt x) else s.bufByte x := by
  have : (0x800 ≤ x ∧ x < 0x800 + (s.len.toNat - 0x800)) ↔ (0x800 ≤ x ∧ x < s.len.toNat) := by omega
  simp [transformImage, xorLoop_bufByte, this]

/-- `CHG` after a transform counts the bytes it changed (R68). -/
theorem transformImage_chg_toNat (s : State) :
    (transformImage s).chg.toNat =
      (List.range' 0x800 (s.len.toNat - 0x800)).countP (fun i => (transformImage s).bufByte i != s.bufByte i) := by
  have h := xorLoop_chg_toNat (s.len.toNat - 0x800) 0x800 (s.setChg 0#32) rfl (by have := s.len.isLt; omega)
  have e : (transformImage s).chg = (xorLoop (s.len.toNat - 0x800) 0x800 (s.setChg 0#32)).chg := by
    simp [transformImage]
  rw [e, h]
  refine List.countP_congr fun x hx => ?_
  have hx : 0x800 ≤ x ∧ x < s.len.toNat := by
    have := List.mem_range'_1.1 hx
    omega
  simp [transformImage_bufByte, hx]

end Sys2Proof.Machine
end

