-- ==== Sys2Proof/Laws/PerInstr.lean ====
section
/-! SUPPORT. Statements made per command: the family of the command words. -/

namespace Sys2Proof.Laws

/-- What holds of every command as syntax: it is well formed, its word has `RSV` = 0, is one byte long and decodes to it
(R44, R47). -/
def EncodedWord.Statement (i : Instr) : Prop :=
  i.wf = true ∧ rsvField (encodeWord i) = 0#6 ∧ wordWf (encodeWord i) = true ∧ (encode i).length = 1 ∧
    decodeTableWord 8 (encodeWord i).toNat = some i

theorem EncodedWord.nop : EncodedWord.Statement .nop := by unfold EncodedWord.Statement; decide
theorem EncodedWord.kexp : EncodedWord.Statement .kexp := by unfold EncodedWord.Statement; decide
theorem EncodedWord.xfrm : EncodedWord.Statement .xfrm := by unfold EncodedWord.Statement; decide
theorem EncodedWord.run : EncodedWord.Statement .run := by unfold EncodedWord.Statement; decide

end Sys2Proof.Laws
end

