-- ==== Sys2Proof/Laws/Step.lean ====
section
/-! SUPPORT. The step, turn by turn, and runs of several steps. -/

namespace Sys2Proof.Machine

/-- With no turn left the block takes its step. -/
theorem step_nil (s : State) (h : s.script = []) : step s = blockStep s := by
  simp [step, nextTurn, h]

/-- A step takes the first turn off the schedule. -/
theorem step_cons (s : State) (t : Turn) (rest : List Turn) (h : s.script = t :: rest) :
    step s = takeTurn exec t (s.setScript rest) := by
  simp [step, nextTurn, h]

theorem decodeWord_reserved (w : Byte) (h : w.extractLsb 7 2 ≠ 0#6) :
    decodeWord w = .error (.reservedWord w) := by
  have h : rsvField w ≠ 0#6 := h
  simp [decodeWord, h]

/-- A host command is the decoded command's meaning or the reserved word's, a case for each word of R47. -/
theorem hostCommand_cases (run : Instr → State → Result) (w : Byte) (s : State) :
    (∃ i, w = encodeWord i ∧ hostCommand run w s = run i s) ∨
    (rsvField w ≠ 0#6 ∧ hostCommand run w s = execReserved s) := by
  by_cases h : rsvField w = 0#6
  · left
    have hall : ∀ w : Byte, rsvField w = 0#6 →
        w = encodeWord .nop ∨ w = encodeWord .kexp ∨ w = encodeWord .xfrm ∨ w = encodeWord .run := by decide +kernel
    obtain rfl | rfl | rfl | rfl := hall w h
    · exact ⟨.nop, rfl, rfl⟩
    · exact ⟨.kexp, rfl, rfl⟩
    · exact ⟨.xfrm, rfl, rfl⟩
    · exact ⟨.run, rfl, rfl⟩
  · exact .inr ⟨h, by simp [hostCommand, decodeWord, h]⟩

/-- The block's step: none while idle, else that of its phase; a fault outside the range of `IDX`. -/
theorem blockStep_cases (s : State) :
    (s.phase = .idle ∧ blockStep s = .next s) ∨
    (s.phase = .expand ∧ s.idx.toNat ≤ 127 ∧ blockStep s = .next (expandMicro s)) ∨
    (s.phase = .xor ∧ 0x800 ≤ s.idx.toNat ∧ s.idx.toNat ≤ max 0x800 s.len.toNat ∧ blockStep s = .next (xorMicro s)) ∨
    (idxInRange s = false ∧ blockStep s = .fault .sequencerOutOfRange) := by
  cases hp : s.phase with
  | idle => simp [blockStep, idxInRange, hp]
  | expand =>
    by_cases h : s.idx.toNat ≤ 127 <;> simp [blockStep, idxInRange, hp, h]
  | xor =>
    by_cases h : 0x800 ≤ s.idx.toNat ∧ s.idx.toNat ≤ max 0x800 s.len.toNat
    · simp only [blockStep, idxInRange, hp]
      simp [h.1, h.2]
    · have hf : idxInRange s = false := by
        simp only [idxInRange, hp]
        simp only [Bool.and_eq_false_iff, decide_eq_false_iff_not]
        exact Decidable.not_and_iff_not_or_not.1 h
      simp [blockStep, hf]

theorem runFor_zero (s : State) : runFor 0 s = .next s := rfl

theorem runFor_succ (k : Nat) (s t : State) (h : step s = .next t) : runFor (k + 1) s = runFor k t := by
  have h : Sys2Proof.core.step s = .next t := h
  simp only [runFor, Host.Core.run, h]
  rfl

theorem runFor_succ_fault (k : Nat) (s : State) (r : Fault) (h : step s = .fault r) : runFor (k + 1) s = .fault r := by
  have h : Sys2Proof.core.step s = .fault r := h
  simp only [runFor, Host.Core.run, h]
  rfl

theorem runFor_succ_refused (k : Nat) (s : State) (r : Refusal) (h : step s = .refused r) :
    runFor (k + 1) s = .refused r := by
  have h : Sys2Proof.core.step s = .refused r := h
  simp only [runFor, Host.Core.run, h]
  rfl

/-- A run of `j + k` steps is a run of `j` and then one of `k`. -/
theorem runFor_add (j k : Nat) (s t : State) (h : runFor j s = .next t) : runFor (j + k) s = runFor k t := by
  induction j generalizing s with
  | zero =>
    rw [runFor_zero] at h
    cases h
    simp
  | succ j ih =>
    cases hs : step s with
    | next u =>
      rw [runFor_succ j s u hs] at h
      rw [Nat.add_right_comm, runFor_succ _ s u hs]
      exact ih u h
    | fault r => simp [runFor_succ_fault j s r hs] at h
    | refused r => simp [runFor_succ_refused j s r hs] at h

/-! The micro-steps leave the schedule and the host's history alone. -/

@[simp] theorem expandMicro_script (s : State) : (expandMicro s).script = s.script := by
  unfold expandMicro enterXor complete
  split <;> (try split) <;> simp

@[simp] theorem xorMicro_script (s : State) : (xorMicro s).script = s.script := by
  unfold xorMicro complete
  split <;> simp

end Sys2Proof.Machine
end

