-- ==== Sys2Proof/Laws/Turns.lean ====
section
/-! SUPPORT. Inversion: what each turn can have done when it answers a next state, said once. -/

namespace Sys2Proof.Machine

/-- The register map, read backwards (R17). -/
theorem regOf_cases (n : RegNum) :
    (n = 0x00#8 ∧ regOf n = .cmd) ∨ (n = 0x01#8 ∧ regOf n = .status) ∨ (n = 0x02#8 ∧ regOf n = .len) ∨
    (n = 0x03#8 ∧ regOf n = .chg) ∨ (0x04 ≤ n.toNat ∧ n.toNat ≤ 0x7F ∧ regOf n = .reserved) ∨
    (0x80 ≤ n.toNat ∧ regOf n = .key (n.toNat - 0x80)) := by
  revert n
  decide +kernel

theorem fits_iff (r : RegName) (v : Nat) : fits r v = true ↔ v < 2 ^ regWidth r := by
  simp [fits]

theorem hostRegRead_next (n : RegNum) (s t : State) (h : hostRegRead n s = .next t) : ∃ v, t = s.pushSeen v := by
  unfold hostRegRead at h
  split at h
  · exact ⟨_, by simpa using h.symm⟩
  · cases h

/-- A register write that has a meaning presents a word, sets LEN or sets a key register, in an idle block. -/
theorem hostRegWrite_next (n : RegNum) (v : Nat) (s t : State) (h : hostRegWrite n v s = .next t) :
    s.phase = .idle ∧
    ((n = 0x00#8 ∧ v < 2 ^ 8 ∧ t = acceptWord (BitVec.ofNat 8 v) s) ∨
     (n = 0x02#8 ∧ v < 2 ^ 32 ∧ t = s.setLen (BitVec.ofNat 32 v)) ∨
     (0x80 ≤ n.toNat ∧ v < 2 ^ 8 ∧ t = s.setKey (n.toNat - 0x80) (BitVec.ofNat 8 v))) := by
  unfold hostRegWrite at h
  by_cases hb : busy s = true
  · simp [hb] at h
  · refine ⟨(busy_eq_false_iff s).1 (by simpa using hb), ?_⟩
    simp only [hb] at h
    obtain ⟨hn, hr⟩ | ⟨hn, hr⟩ | ⟨hn, hr⟩ | ⟨hn, hr⟩ | ⟨hn, _, hr⟩ | ⟨hn, hr⟩ := regOf_cases n <;>
      simp only [hr] at h
    · by_cases hf : fits .cmd v = true
      · simp [hf] at h
        exact .inl ⟨hn, (fits_iff _ _).1 hf, h.symm⟩
      · simp [hf] at h
    · simp at h
    · by_cases hf : fits .len v = true
      · simp [hf] at h
        exact .inr (.inl ⟨hn, (fits_iff _ _).1 hf, h.symm⟩)
      · simp [hf] at h
    · simp at h
    · simp at h
    · by_cases hf : fits (.key (n.toNat - 0x80)) v = true
      · simp [hf] at h
        exact .inr (.inr ⟨hn, (fits_iff _ _).1 hf, h.symm⟩)
      · simp [hf] at h

theorem hostPeek_next (a : Nat) (s t : State) (h : hostPeek a s = .next t) :
    s.phase = .idle ∧ a < 2 ^ 32 ∧ t = s.pushSeen (s.bufByte a).toNat := by
  unfold hostPeek at h
  by_cases hb : busy s = true
  · simp [hb] at h
  · rw [if_neg hb] at h
    by_cases ha : a < Config.bufSize
    · rw [if_pos ha] at h
      cases h
      exact ⟨(busy_eq_false_iff s).1 (by simpa using hb), ha, rfl⟩
    · rw [if_neg ha] at h
      cases h

theorem hostPoke_next (a : Nat) (v : Byte) (s t : State) (h : hostPoke a v s = .next t) :
    s.phase = .idle ∧ a < 2 ^ 32 ∧ t = s.setBuf (s.buf.write a v) := by
  unfold hostPoke at h
  by_cases hb : busy s = true
  · simp [hb] at h
  · rw [if_neg hb] at h
    by_cases ha : a < Config.bufSize
    · rw [if_pos ha] at h
      cases h
      exact ⟨(busy_eq_false_iff s).1 (by simpa using hb), ha, rfl⟩
    · rw [if_neg ha] at h
      cases h

/-- A presented word that answers next found the block idle; it was ignored, or had its effect. -/
theorem present_next (act : State → State) (s t : State) (h : present act s = .next t) :
    s.phase = .idle ∧ ((s.err ≠ 0#4 ∧ t = s) ∨ (s.err = 0#4 ∧ t = act (s.setDone false))) := by
  obtain ⟨_, e⟩ | ⟨hb, he, e⟩ | ⟨hb, he, e⟩ := present_cases act s
  · simp [e] at h
  · rw [e] at h
    cases h
    exact ⟨(busy_eq_false_iff s).1 hb, .inl ⟨he, rfl⟩⟩
  · rw [e] at h
    cases h
    exact ⟨(busy_eq_false_iff s).1 hb, .inr ⟨he, rfl⟩⟩

/-- A length-checked effect faults or acts. -/
theorem withLengthCheck_cases (act : State → State) (s : State) :
    (s.len.toNat < 0x410 ∧ withLengthCheck act s = raiseFault insufficientLength s) ∨
    (0x410 ≤ s.len.toNat ∧ withLengthCheck act s = act s) := by
  by_cases h : s.len.toNat < 0x410
  · exact .inl ⟨h, withLengthCheck_short act s h⟩
  · exact .inr ⟨by omega, withLengthCheck_long act s (by omega)⟩

/-- The accept step, line by line (R86). -/
theorem acceptWord_cases (w : Byte) (s : State) :
    (s.err ≠ 0#4 ∧ acceptWord w s = s) ∨
    (s.err = 0#4 ∧ rsvField w ≠ 0#6 ∧ acceptWord w s = raiseFault illegalCommand (s.setDone false)) ∨
    (s.err = 0#4 ∧ rsvField w = 0#6 ∧ expField w = true ∧ s.len.toNat < 0x410 ∧
      acceptWord w s = raiseFault insufficientLength (s.setDone false)) ∨
    (s.err = 0#4 ∧ rsvField w = 0#6 ∧ expField w = true ∧ 0x410 ≤ s.len.toNat ∧
      acceptWord w s = (((s.setDone false).setCmdr (cmdrField w)).setPhase .expand).setIdx 0#32) ∨
    (s.err = 0#4 ∧ rsvField w = 0#6 ∧ expField w = false ∧ xfmField w = true ∧
      acceptWord w s = enterXor ((s.setDone false).setCmdr (cmdrField w))) ∨
    (s.err = 0#4 ∧ rsvField w = 0#6 ∧ expField w = false ∧ xfmField w = false ∧
      acceptWord w s = ((s.setDone false).setCmdr (cmdrField w)).setDone true) := by
  unfold acceptWord
  by_cases he : s.err = 0#4
  · by_cases hr : rsvField w = 0#6
    · cases hx : expField w
      · cases hm : xfmField w <;> simp [he, hr]
      · by_cases hl : s.len.toNat < 0x410
        · have ht := (tooShort_iff s).2 hl
          simp [he, hr, hl, ht]
        · have ht : tooShort s = false := by simpa using (tooShort_iff s).not.2 hl
          simp [he, hr, ht, Nat.le_of_not_lt hl]
    · simp [he, hr]
  · simp [he]

/-- Who made a step that answers next: the block, or the host with one of its accesses (R85, R92). The state `s.setScript rest`
is `s` with the turn taken off. -/
theorem step_next (s t : State) (h : step s = .next t) :
    (∃ ts, blockStep (s.setScript ts) = .next t ∧ ¬ ∃ rest, s.script = .reset :: rest) ∨
    (∃ w rest, s.script = .command w :: rest ∧ hostCommand exec w (s.setScript rest) = .next t) ∨
    (∃ n rest v, s.script = .regRead n :: rest ∧ t = (s.setScript rest).pushSeen v) ∨
    (∃ n v rest, s.script = .regWrite n v :: rest ∧ hostRegWrite n v (s.setScript rest) = .next t) ∨
    (∃ a rest v, s.script = .peek a :: rest ∧ t = (s.setScript rest).pushSeen v) ∨
    (∃ a v rest, s.script = .poke a v :: rest ∧ hostPoke a v (s.setScript rest) = .next t) ∨
    (∃ rest, s.script = .wait :: rest ∧ s.phase = .idle ∧ t = s.setScript rest) ∨
    (∃ rest, s.script = .reset :: rest ∧ t = resetBlock (s.setScript rest)) := by
  cases hs : s.script with
  | nil =>
    rw [step_nil s hs] at h
    refine .inl ⟨[], ?_, by simp⟩
    rw [← hs]
    exact h
  | cons turn rest =>
    rw [step_cons s turn rest hs] at h
    cases turn with
    | block => exact .inl ⟨rest, h, by simp⟩
    | command w => exact .inr (.inl ⟨w, rest, rfl, h⟩)
    | regRead n =>
      obtain ⟨v, hv⟩ := hostRegRead_next n _ _ h
      exact .inr (.inr (.inl ⟨n, rest, v, rfl, hv⟩))
    | regWrite n v => exact .inr (.inr (.inr (.inl ⟨n, v, rest, rfl, h⟩)))
    | peek a => exact .inr (.inr (.inr (.inr (.inl ⟨a, rest, _, rfl, (hostPeek_next a _ _ h).2.2⟩))))
    | poke a v => exact .inr (.inr (.inr (.inr (.inr (.inl ⟨a, v, rest, rfl, h⟩)))))
    | wait =>
      change hostWait (s.setScript rest) = .next t at h
      unfold hostWait at h
      by_cases hb : busy s = true
      · simp only [State.setScript_busy, hb, if_true] at h
        exact .inl ⟨.wait :: rest, h, by simp⟩
      · simp only [State.setScript_busy, hb] at h
        refine .inr (.inr (.inr (.inr (.inr (.inr (.inl ⟨rest, rfl, ?_, ?_⟩))))))
        · exact (busy_eq_false_iff s).1 (by simpa using hb)
        · simpa using h.symm
    | reset =>
      refine .inr (.inr (.inr (.inr (.inr (.inr (.inr ⟨rest, rfl, ?_⟩))))))
      simpa [takeTurn] using h.symm

end Sys2Proof.Machine
end

