-- ==== Sys2Proof/Laws/Sequencer.lean ====
section
/-! SUPPORT. The block's steps do not look at the schedule or at what the host has read; a phase of many micro-steps is the
loop of whole commands. -/

namespace Sys2Proof.Machine

/-- The state with another schedule and another list of values read. -/
def State.withHost (ts : List Turn) (vs : List Nat) (s : State) : State := { s with script := ts, seen := vs }

theorem expandAt_setIdx (n : Nat) (s : State) (v : Word) : expandAt n (s.setIdx v) = (expandAt n s).setIdx v := by
  unfold expandAt
  split
  · rfl
  · split <;> rfl

theorem xorAt_setIdx (i : Nat) (s : State) (v : Word) : xorAt i (s.setIdx v) = (xorAt i s).setIdx v := by
  unfold xorAt State.noteRead
  simp only [State.setIdx_bufByte, State.setIdx_keyAt]
  split
  · rfl
  · split
    · rfl
    · split <;> rfl

theorem expandAt_withHost (n : Nat) (s : State) (ts : List Turn) (vs : List Nat) :
    expandAt n (s.withHost ts vs) = (expandAt n s).withHost ts vs := by
  unfold expandAt
  split
  · rfl
  · split <;> rfl

theorem xorAt_withHost (i : Nat) (s : State) (ts : List Turn) (vs : List Nat) :
    xorAt i (s.withHost ts vs) = (xorAt i s).withHost ts vs := by
  have hb : (s.withHost ts vs).bufByte i = s.bufByte i := rfl
  have hk : (s.withHost ts vs).keyAt i = s.keyAt i := rfl
  unfold xorAt State.noteRead
  simp only [hb, hk]
  split
  · rfl
  · split
    · rfl
    · split <;> rfl

theorem expandMicro_withHost (s : State) (ts : List Turn) (vs : List Nat) :
    expandMicro (s.withHost ts vs) = (expandMicro s).withHost ts vs := by
  have hi : (s.withHost ts vs).idx = s.idx := rfl
  have hc : (s.withHost ts vs).cmdr = s.cmdr := rfl
  simp only [expandMicro, hi, hc, expandAt_withHost]
  split
  · rfl
  · split <;> rfl

theorem xorMicro_withHost (s : State) (ts : List Turn) (vs : List Nat) :
    xorMicro (s.withHost ts vs) = (xorMicro s).withHost ts vs := by
  have hi : (s.withHost ts vs).idx = s.idx := rfl
  have hl : (s.withHost ts vs).len = s.len := rfl
  simp only [xorMicro, hi, hl, xorAt_withHost]
  split <;> rfl

/-- The block's step, whatever the schedule and the values read so far. -/
theorem blockStep_withHost (s t : State) (ts : List Turn) (vs : List Nat) (h : blockStep s = .next t) :
    blockStep (s.withHost ts vs) = .next (t.withHost ts vs) := by
  have hr : idxInRange (s.withHost ts vs) = idxInRange s := rfl
  have hp : (s.withHost ts vs).phase = s.phase := rfl
  unfold blockStep at h ⊢
  rw [hr, hp]
  split at h
  · rename_i hin
    rw [if_pos hin]
    cases hq : s.phase <;> simp only [hq] at h ⊢ <;> injection h with h
    · rw [h]
    · rw [expandMicro_withHost, h]
    · rw [xorMicro_withHost, h]
  · cases h

theorem blockStep_idle (s : State) (h : s.phase = .idle) : blockStep s = .next s := by
  simp [blockStep, idxInRange, h]

theorem blockStep_expand (s : State) (h : s.phase = .expand) (hi : s.idx.toNat ≤ 127) :
    blockStep s = .next (expandMicro s) := by
  simp [blockStep, idxInRange, h, hi]

theorem blockStep_xor (s : State) (h : s.phase = .xor) (h1 : 0x800 ≤ s.idx.toNat)
    (h2 : s.idx.toNat ≤ max 0x800 s.len.toNat) : blockStep s = .next (xorMicro s) := by
  simp only [blockStep, idxInRange, h]
  simp [h1, h2]

/-- Each step of a busy block takes exactly one off the steps it has left (R87, R88, R90). -/
theorem blockStep_stepsLeft (s t : State) (hp : s.phase ≠ .idle) (h : blockStep s = .next t) :
    stepsLeft t + 1 = stepsLeft s := by
  have hidx (v : Word) (b : Nat) (hb : v.toNat < b) (hb2 : b < 2 ^ 32) : (v + 1#32).toNat = v.toNat + 1 := by
    rw [BitVec.toNat_add, show (1#32).toNat = 1 from rfl]
    omega
  obtain ⟨hq, _⟩ | ⟨hq, hi, e⟩ | ⟨hq, hi, hi2, e⟩ | ⟨_, e⟩ := blockStep_cases s
  · exact absurd hq hp
  · rw [e] at h
    cases h
    have hs : stepsLeft s = 128 - s.idx.toNat + (if s.cmdr.getLsbD 1 then s.len.toNat - Config.skip + 1 else 0) := by
      simp only [stepsLeft, hq]
    rw [hs]
    unfold expandMicro
    split
    · rename_i hlt
      simp only [stepsLeft, State.setIdx_phase, expandAt_phase, hq, State.setIdx_idx, hidx _ _ hlt (by decide),
        State.setIdx_cmdr, expandAt_cmdr, State.setIdx_len, expandAt_len]
      omega
    · split
      · simp only [stepsLeft, enterXor, State.setChg_phase, State.setIdx_phase, State.setPhase_phase, State.setChg_len,
          State.setIdx_len, State.setPhase_len, expandAt_len, State.setChg_idx, State.setIdx_idx]
        have : (0x800#32).toNat = Config.skip := rfl
        omega
      · simp only [stepsLeft, complete, State.setDone_phase, State.setPhase_phase]
        omega
  · rw [e] at h
    cases h
    have hs : stepsLeft s = max Config.skip s.len.toNat - s.idx.toNat + 1 := by simp only [stepsLeft, hq]
    have hskip : Config.skip = 0x800 := rfl
    rw [hs]
    unfold xorMicro
    split
    · simp only [stepsLeft, complete, State.setDone_phase, State.setPhase_phase]
      omega
    · rename_i hlt
      simp only [stepsLeft, State.setIdx_phase, xorAt_phase, hq, State.setIdx_idx,
        hidx _ _ (Nat.lt_of_not_le hlt) s.len.isLt, State.setIdx_len, xorAt_len]
      omega
  · rw [e] at h
    cases h

/-- One EXPAND step carries the loop of R57 one index on (R87). -/
theorem blockStep_expandLoop (s : State) (k : Nat) (hp : s.phase = .expand) (hk : k < 127) :
    blockStep ((expandLoop k 0 s).setIdx (BitVec.ofNat 32 k)) =
      .next ((expandLoop (k + 1) 0 s).setIdx (BitVec.ofNat 32 (k + 1))) := by
  have hi : (BitVec.ofNat 32 k).toNat = k := by
    simp
    omega
  rw [blockStep_expand _ (by simp [hp]) (by simp only [State.setIdx_idx, hi]; omega)]
  unfold expandMicro
  simp only [State.setIdx_idx, hi]
  rw [if_pos hk, expandAt_setIdx, expandLoop_succ_last, BitVec.ofNat_add, Nat.zero_add]
  rfl

/-- The last EXPAND step ends the expansion (R87). -/
theorem blockStep_expandLoop_last (s : State) (hp : s.phase = .expand) :
    blockStep ((expandLoop 127 0 s).setIdx (BitVec.ofNat 32 127)) =
      .next (if s.cmdr.getLsbD 1 then enterXor (expandKey s) else complete (expandKey s)) := by
  have hi : (BitVec.ofNat 32 127).toNat = 127 := rfl
  have he : expandKey s = (expandAt 127 (expandLoop 127 0 s)).setIdx 127#32 := by
    have h := expandLoop_succ_last 127 0 s
    rw [Nat.zero_add] at h
    unfold expandKey
    rw [show Config.keyLen = 127 + 1 from rfl, h]
  rw [blockStep_expand _ (by simp [hp]) (by simp)]
  unfold expandMicro
  simp only [State.setIdx_idx, hi]
  rw [if_neg (by omega), expandAt_setIdx, he]
  simp only [State.setIdx_cmdr, expandLoop_cmdr]

/-- One XOR step carries the loop of R66 one index on (R88). -/
theorem blockStep_xorLoop (s : State) (k : Nat) (hp : s.phase = .xor) (hk : k < s.len.toNat - 0x800) :
    blockStep ((xorLoop k 0x800 s).setIdx (BitVec.ofNat 32 (0x800 + k))) =
      .next ((xorLoop (k + 1) 0x800 s).setIdx (BitVec.ofNat 32 (0x800 + (k + 1)))) := by
  have hlt := s.len.isLt
  have hi : (BitVec.ofNat 32 (0x800 + k)).toNat = 0x800 + k := by
    simp
    omega
  rw [blockStep_xor _ (by simp [hp]) (by simp only [State.setIdx_idx, hi]; omega)
    (by simp only [State.setIdx_idx, State.setIdx_len, xorLoop_len, hi]; omega)]
  unfold xorMicro
  simp only [State.setIdx_idx, State.setIdx_len, xorLoop_len, hi]
  rw [if_neg (by omega), xorAt_setIdx, xorLoop_succ_last, ← BitVec.ofNat_add]
  rfl

/-- The closing XOR step (R88). -/
theorem blockStep_xorLoop_last (s : State) (hp : s.phase = .xor) :
    blockStep ((xorLoop (s.len.toNat - 0x800) 0x800 s).setIdx (BitVec.ofNat 32 (max 0x800 s.len.toNat))) =
      .next (complete ((xorLoop (s.len.toNat - 0x800) 0x800 s).setIdx (BitVec.ofNat 32 (max 0x800 s.len.toNat)))) := by
  have hlt := s.len.isLt
  have hi : (BitVec.ofNat 32 (max 0x800 s.len.toNat)).toNat = max 0x800 s.len.toNat := by
    simp
    omega
  rw [blockStep_xor _ (by simp [hp]) (by simp only [State.setIdx_idx, hi]; omega)
    (by simp only [State.setIdx_idx, State.setIdx_len, xorLoop_len, hi]; omega)]
  unfold xorMicro
  simp only [State.setIdx_idx, State.setIdx_len, xorLoop_len, hi]
  rw [if_pos (by omega)]

end Sys2Proof.Machine
end

