-- ==== Sys2Proof/Tests/Slice0.lean ====
section
/-! SUPPORT. Tests against words and vectors written out from spec/, and a witness for the hypotheses of every statement. -/

namespace Sys2Proof.Tests

open Sys2Proof.Machine

/-! Small states -/

/-- An idle, unfaulted block with the given `LEN`, written bytes of BUF and schedule. -/
def ready (len : Word) (buf : Memory) (ts : List Turn) : State :=
  { State.reset with len := len, buf := buf, script := ts }

/-- A block with a recorded fault. -/
def faulted (ts : List Turn) : State := { State.reset with err := 1#4, len := 0x20#32, script := ts }

/-- A block in phase EXPAND at the index `n`. -/
def expanding (n : Word) (cmdr : BitVec 2) (ts : List Turn) : State :=
  { State.reset with phase := .expand, idx := n, cmdr := cmdr, len := 0x820#32, script := ts }

/-- A block in phase XOR at the index `i`, `LEN` = 0x803. -/
def xoring (i : Word) (ts : List Turn) : State :=
  { State.reset with
    phase := .xor, idx := i, cmdr := 2#2, len := 0x803#32, script := ts,
    buf := [(0x800, 0x11#8), (0x801, 0x11#8), (0x802, 0x11#8)] }

/-- The seed of V-K1 in BUF. -/
def seedK1 : Memory := (List.range 16).map fun n => (0x400 + n, BitVec.ofNat 8 n)

/-- What `f` says of the next state, if there is one. -/
def ofNext {α : Type} (r : Result) (f : State → α) : Option α :=
  match r with
  | .next t => some (f t)
  | .fault _ => none
  | .refused _ => none

/-! Form and decoding (R44, R47, R48) -/

theorem test_wf_refuses_first_and_last_reserved : wordWf 0b00000100#8 = false ∧ wordWf 0b11111111#8 = false := by decide
theorem test_wf_refuses_each_reserved_bit :
    ∀ w ∈ [0b00000101#8, 0b00001010#8, 0b00010011#8, 0b00100000#8, 0b01000001#8, 0b10000000#8], wordWf w = false := by decide
theorem test_every_command_is_wf : ∀ i ∈ [Instr.nop, Instr.kexp, Instr.xfrm, Instr.run], i.wf = true := by decide
theorem test_decode_nop : decode [0b00000000#8] = .ok (.nop, []) := by decide
theorem test_decode_kexp : decode [0b00000001#8, 0xAA#8] = .ok (.kexp, [0xAA#8]) := by decide
theorem test_decode_xfrm : decode [0b00000010#8] = .ok (.xfrm, []) := by decide
theorem test_decode_run : decode [0b00000011#8] = .ok (.run, []) := by decide
theorem test_decode_refuses : decode [] = .error .noWord ∧ decode [0x07#8] = .error (.reservedWord 0x07#8) := by decide
theorem test_table_words :
    decodeTableWord 8 0 = some .nop ∧ decodeTableWord 8 1 = some .kexp ∧ decodeTableWord 8 2 = some .xfrm ∧
    decodeTableWord 8 3 = some .run ∧ decodeTableWord 8 4 = none ∧ decodeTableWord 8 255 = none := by decide

/-! The byte functions: V-R1 and V-F1 of 95_test_vectors.md -/

theorem test_rol8_vectors :
    [0x01#8, 0x80#8, 0x08#8, 0x7F#8, 0xFE#8, 0x81#8, 0xC3#8, 0xFF#8].map rol8 =
      [0x02#8, 0x01#8, 0x10#8, 0xFE#8, 0xFD#8, 0x03#8, 0x87#8, 0xFF#8] := by decide
theorem test_ror8_vectors :
    [0x01#8, 0x80#8, 0x08#8, 0x7F#8, 0xFE#8, 0x81#8, 0xC3#8, 0xFF#8].map ror8 =
      [0x80#8, 0x40#8, 0x04#8, 0xBF#8, 0x7F#8, 0xC0#8, 0xE1#8, 0xFF#8] := by decide
theorem test_xf_vectors :
    [xf 0x00 0x5A, xf 0xFF 0x5A, xf 0x5A 0x5A, xf 0xA5 0x5A, xf 0x01 0xFE, xf 0x80 0x7F, xf 0x5A 0x00, xf 0x5A 0xFF,
      xf 0x41 0x04, xf 0xFE 0x80] =
    [0x00#8, 0xFF#8, 0x5A#8, 0xA5#8, 0x01#8, 0x80#8, 0x5A#8, 0xA5#8, 0x45#8, 0x7E#8] := by decide

/-- V-K1: bytes 16, 23, 24, 25, 64 and 127 of the key. -/
theorem test_expand_k1 :
    ([16, 23, 24, 25, 72, 127].map fun n =>
      expandByte (Vector.ofFn fun n : Fin 16 => BitVec.ofNat 8 n.val) (n / 16) (n % 16)) =
    [0x00#8, 0x0E#8, 0x04#8, 0x84#8, 0x80#8, 0x1E#8] := by decide +kernel

/-! The commands -/

/-- S-C1: KEXP on the seed 00 to 0F. -/
theorem test_kexp_scenario_1 :
    ofNext (exec .kexp (ready 0x820#32 seedK1 [])) (fun t => (t.keyAt 16, t.keyAt 24, t.keyAt 127, statusWord t)) =
      some (0x00#8, 0x04#8, 0x1E#8, 0x02#8) := by decide +kernel

/-- V-K6 and S-C3: KEXP at LEN = 0x40F. -/
theorem test_kexp_short : ofNext (exec .kexp (ready 0x40F#32 seedK1 [])) statusWord = some 0x10#8 := by decide +kernel

/-- V-X3: one byte, one read, one write. -/
theorem test_xfrm_one_byte :
    ofNext (exec .xfrm ((ready 0x801#32 [(0x800, 0x41#8)] []).setKey 0 0x04#8)) (fun t => (t.buf, t.chg, t.trace)) =
      some ([(0x800, 0x45#8)], 1#32, [.memWrite 0x800 0x45#8, .memRead 0x800 0x41#8]) := by decide +kernel

/-- V-F1 and R68 together: a sentinel, a byte that would become one, and a store of the same value. -/
theorem test_xfrm_exceptions :
    ofNext (exec .xfrm ((ready 0x803#32 [(0x800, 0xFF#8), (0x801, 0xA5#8), (0x802, 0x5A#8)] []).setKey 1 0x5A#8))
        (fun t => (t.buf, t.chg, t.trace.countP Access.isMemWrite)) =
      some ([(0x800, 0xFF#8), (0x801, 0xA5#8), (0x802, 0x5A#8)], 0#32, 1) := by decide +kernel

/-- P1 at 0x804 to 0x806: the key byte of RUN is the one of its own seed. -/
theorem test_run_p1 :
    ofNext (exec .run (ready 0x807#32
        (seedK1 ++ [(0x800, 0x5A#8), (0x801, 0x00#8), (0x802, 0xFF#8), (0x803, 0x03#8), (0x804, 0xFB#8), (0x805, 0x41#8),
          (0x806, 0x10#8)]) []))
        (fun t => (t.bufByte 0x800, t.bufByte 0x803, t.bufByte 0x804, t.bufByte 0x805, t.bufByte 0x806, t.chg, statusWord t)) =
      some (0x5A#8, 0x03#8, 0xFB#8, 0x44#8, 0x16#8, 2#32, 0x02#8) := by decide +kernel

/-- S-C2: nothing past the skip region. -/
theorem test_run_empty_region :
    ofNext (exec .run (ready 0x800#32 seedK1 [])) (fun t => (t.buf, t.chg, statusWord t)) =
      some (seedK1, 0#32, 0x02#8) := by decide +kernel

/-- V-C1: the words of a fresh block, and V-C2: a fault is sticky. -/
theorem test_nop_from_reset : ofNext (exec .nop State.reset) statusWord = some 0x02#8 := by decide +kernel
theorem test_nop_ignored_when_faulted : ofNext (exec .nop (faulted [])) statusWord = some 0x10#8 := by decide +kernel

/-- V-C1: word 05 at LEN = 0 is ILLEGAL_COMMAND. -/
theorem test_reserved_word_wins :
    ofNext (step (ready 0 [] [.command 0x05#8])) statusWord = some 0x20#8 := by decide +kernel

/-- V-C5: the accept step, XOR 1 and XOR 4. -/
theorem test_trace_accept :
    ofNext (step { xoring 0 [.regWrite 0 2] with phase := .idle, chg := 9 }) (fun t => (t.phase, t.idx, t.chg, statusWord t)) =
      some (.xor, 0x800#32, 0#32, 0x01#8) := by decide +kernel
theorem test_trace_xor_1 :
    ofNext (step ((xoring 0x800 [.block]).setKey 0 0xA0#8)) (fun t => (t.phase, t.idx, t.chg, t.bufByte 0x800, statusWord t)) =
      some (.xor, 0x801#32, 1#32, 0xB1#8, 0x01#8) := by decide +kernel
theorem test_trace_xor_4 :
    ofNext (step (xoring 0x803 [.block])) (fun t => (t.phase, t.idx, statusWord t)) =
      some (.idle, 0x803#32, 0x02#8) := by decide +kernel

/-- V-C6: the last EXPAND step of KEXP, with K[111] = 3C. -/
theorem test_expand_step_127 :
    ofNext (step ((expanding 127 1 []).setKey 111 0x3C#8)) (fun t => (t.keyAt 127, t.phase, t.idx, statusWord t)) =
      some (0x1E#8, .idle, 127#32, 0x02#8) := by decide +kernel

/-! The host's port (R17, R28) -/

theorem test_host_key_register :
    ofNext (step (ready 0 [] [.regWrite 0xFF 0xA5])) (fun t => t.keyAt 127) = some 0xA5#8 := by decide +kernel
theorem test_host_reads_len :
    ofNext (step (ready 0x12345678 [] [.regRead 0x02])) (fun t => t.seen) = some [0x12345678] := by decide +kernel

/-! Witnesses: for each statement, states and operands that meet its hypotheses, clause by clause, at the edges of their ranges. -/

theorem witness_DecodeEncodeAgree :
    decodeWord 0x03#8 = .ok .run ∧ wordWf 0x04#8 = false ∧ wordWf 0xFF#8 = false := by decide

theorem witness_StepRunsPresentedCommand :
    (ready 0 [] [.command 0x02#8, .wait]).script = [.command 0x02#8, .wait] ∧ decodeWord 0x02#8 = .ok .xfrm := by decide

theorem witness_CommandsRunExactlyWhenIdle :
    (faulted []).phase = .idle ∧ (expanding 0 3 []).phase ≠ .idle ∧ (xoring 0x800 []).phase ≠ .idle := by decide

theorem witness_NopCompletes : Ready State.reset ∧ (faulted []).phase = .idle ∧ (faulted []).err ≠ 0#4 := by decide

theorem witness_ReservedWordRaisesIllegalCommand :
    Ready (ready 0 [] [.command 0x04#8]) ∧ (0x04#8).extractLsb 7 2 ≠ 0#6 ∧
    (ready 0 [] [.command 0x04#8]).script = [.command 0x04#8] ∧
    Ready (ready 0 [] [.regWrite 0x00#8 0xFF]) ∧ (0xFF#8).extractLsb 7 2 ≠ 0#6 ∧
    (ready 0 [] [.regWrite 0x00#8 0xFF]).script = [.regWrite 0x00#8 (0xFF#8).toNat] := by decide

theorem witness_ShortImageRaisesInsufficientLength :
    Ready (ready 0x40F#32 [] []) ∧ (ready 0x40F#32 [] []).len.toNat < 0x410 ∧
    Ready (ready 0x410#32 [] []) ∧ 0x410 ≤ (ready 0x410#32 [] []).len.toNat := by decide

theorem witness_FaultsArePrecise :
    (Ready (ready 0 [] [.command 0x05#8]) ∧ ∃ t, step (ready 0 [] [.command 0x05#8]) = .next t ∧ t.err ≠ 0#4) ∧
    (Ready (ready 0 [] [.regWrite 0x00#8 0x01]) ∧
      ∃ t, step (ready 0 [] [.regWrite 0x00#8 0x01]) = .next t ∧ t.err ≠ 0#4) ∧
    ((xoring 0x803 [.block]).phase ≠ .idle ∧ (xoring 0x803 [.block]).err = 0#4 ∧
      ∃ t, step (xoring 0x803 [.block]) = .next t) :=
  ⟨⟨by decide, _, rfl, by decide +kernel⟩, ⟨by decide, _, rfl, by decide +kernel⟩, by decide, by decide, _, rfl⟩

theorem witness_FaultedBlockIgnoresWords :
    ∀ turn ∈ [Turn.command 0x03#8, .regWrite 0x00#8 0xFF, .regWrite 0x02#8 0xFFFFFFFF, .regWrite 0x80#8 0xFF,
        .regWrite 0xFF#8 0x00, .regRead 0x01#8, .regRead 0x02#8, .regRead 0x03#8, .regRead 0x80#8, .regRead 0xFF#8,
        .peek 0, .peek 0xFFFFFFFF, .poke 0 0x01#8, .poke 0xFFFFFFFF 0x02#8],
      (faulted [turn]).phase = .idle ∧ (faulted [turn]).err ≠ 0#4 ∧ (faulted [turn]).script = [turn] := by decide

theorem witness_ErrStaysUntilReset :
    (faulted [.reset]).err ≠ 0#4 ∧ (∃ t, step (faulted [.reset]) = .next t) ∧
    (faulted [.command 0x01#8]).err ≠ 0#4 ∧ ∃ t, step (faulted [.command 0x01#8]) = .next t :=
  ⟨by decide, ⟨_, rfl⟩, by decide, _, rfl⟩

/-- Also of KexpClosedForm, KexpAccessHistory, RunExpandsThenTransforms, RunIsKexpThenXfrm and RunTwiceRestoresImage. -/
theorem witness_KexpExpandsSeedIntoKey :
    Ready (ready 0x410#32 seedK1 []) ∧ 0x410 ≤ (ready 0x410#32 seedK1 []).len.toNat ∧
    Ready (ready 0xFFFFFFFF#32 seedK1 []) ∧ 0x410 ≤ (ready 0xFFFFFFFF#32 seedK1 []).len.toNat := by decide

theorem witness_KexpDependsOnSeedOnly :
    Ready (ready 0x410#32 seedK1 []) ∧ Ready (ready 0x820#32 (seedK1 ++ [(0x800, 0x01#8)]) []) ∧
    0x410 ≤ (ready 0x410#32 seedK1 []).len.toNat ∧
    0x410 ≤ (ready 0x820#32 (seedK1 ++ [(0x800, 0x01#8)]) []).len.toNat ∧
    ∀ n, n < 16 → (ready 0x410#32 seedK1 []).bufByte (0x400 + n) =
      (ready 0x820#32 (seedK1 ++ [(0x800, 0x01#8)]) []).bufByte (0x400 + n) := by decide +kernel

theorem witness_ByteTransformLaws :
    (0x5A#8 ^^^ 0x5A#8 = 0x00#8) ∧ (0x01#8 ^^^ 0xFE#8 = 0xFF#8) ∧
    ¬ (0x41#8 = 0x00#8 ∨ 0x41#8 = 0xFF#8) ∧ ¬ (0x41#8 ^^^ 0x04#8 = 0x00#8 ∨ 0x41#8 ^^^ 0x04#8 = 0xFF#8) := by decide

/-- Also of XfrmCountsChangedBytes, XfrmAccessHistory and XfrmTwiceRestoresImage; both clauses on offsets, at their edges. -/
theorem witness_XfrmTransformsImage :
    Ready (ready 0x801#32 [] []) ∧ (0x800 ≤ 0x800 ∧ 0x800 < (ready 0x801#32 [] []).len.toNat) ∧ 0x7FF < 0x800 ∧
    (ready 0x801#32 [] []).len.toNat ≤ 0x801 ∧ Ready (ready 0 [] []) := by decide

theorem witness_SentinelsPreservedAndNeverIntroduced :
    Ready (ready 0x410#32 [] []) ∧ 0x410 ≤ (ready 0x410#32 [] []).len.toNat ∧
    (xoring 0x800 []).bufByte 0x800 ≠ 0x00#8 ∧ (ready 0x801#32 [(0x800, 0x00#8)] []).bufByte 0x800 = 0x00#8 ∧
    (ready 0x801#32 [(0x800, 0xFF#8)] []).bufByte 0x800 = 0xFF#8 ∧
    ofNext (exec .xfrm ((ready 0x801#32 [(0x800, 0x41#8)] []).setKey 0 0x04#8)) (fun t => decide (t.bufByte 0x800 ≠ 0x41#8)) =
      some true := by decide +kernel

theorem witness_OutputByteDependsOnOwnByteAndKey :
    Ready (ready 0x801#32 [(0x800, 0x41#8)] []) ∧ Ready (ready 0x803#32 [(0x800, 0x41#8), (0x801, 0x07#8)] []) ∧
    0x800 < (ready 0x801#32 [(0x800, 0x41#8)] []).len.toNat ∧
    (ready 0x801#32 [(0x800, 0x41#8)] []).bufByte 0x800 =
      (ready 0x803#32 [(0x800, 0x41#8), (0x801, 0x07#8)] []).bufByte 0x800 ∧
    (ready 0x801#32 [(0x800, 0x41#8)] []).keyAt 0x800 =
      (ready 0x803#32 [(0x800, 0x41#8), (0x801, 0x07#8)] []).keyAt 0x800 := by decide +kernel

theorem witness_UniformKeyCases :
    Ready State.reset ∧ State.reset.key = Vector.replicate 128 0x00#8 ∧
    Ready { ready 0x801#32 [(0x800, 0x41#8)] [] with key := Vector.replicate 128 0xFF#8 } ∧
    isSentinel ((ready 0x801#32 [(0x800, 0x41#8)] []).bufByte 0x800) = false := ⟨by decide, rfl, by decide, by decide⟩

theorem witness_RunWithNothingToTransform :
    Ready (ready 0x410#32 [] []) ∧ 0x410 ≤ (ready 0x410#32 [] []).len.toNat ∧
    (ready 0x410#32 [] []).len.toNat ≤ 0x800 ∧ Ready (ready 0x800#32 [] []) ∧
    0x410 ≤ (ready 0x800#32 [] []).len.toNat ∧ (ready 0x800#32 [] []).len.toNat ≤ 0x800 := by decide

/-- A state for each of the six lines of R86. -/
theorem witness_AcceptStepLines :
    ((faulted [.regWrite 0x00#8 0x03]).phase = .idle ∧ (faulted [.regWrite 0x00#8 0x03]).err ≠ 0#4) ∧
    (Ready (ready 0 [] [.regWrite 0x00#8 0x05]) ∧ (0x05#8).extractLsb 7 2 ≠ 0#6) ∧
    (Ready (ready 0x40F#32 [] [.regWrite 0x00#8 0x01]) ∧ (0x01#8).extractLsb 7 2 = 0#6 ∧ (0x01#8).getLsbD 0 = true ∧
      (ready 0x40F#32 [] [.regWrite 0x00#8 0x01]).len.toNat < 0x410) ∧
    (Ready (ready 0x410#32 [] [.regWrite 0x00#8 0x03]) ∧ (0x03#8).extractLsb 7 2 = 0#6 ∧ (0x03#8).getLsbD 0 = true ∧
      0x410 ≤ (ready 0x410#32 [] [.regWrite 0x00#8 0x03]).len.toNat) ∧
    (Ready (ready 0 [] [.regWrite 0x00#8 0x02]) ∧ (0x02#8).getLsbD 0 = false ∧ (0x02#8).getLsbD 1 = true) ∧
    (Ready (ready 0 [] [.regWrite 0x00#8 0x00]) ∧ (0x00#8).getLsbD 0 = false ∧ (0x00#8).getLsbD 1 = false) := by decide

theorem witness_ExpandStepWritesKeyRegister :
    ((expanding 0 3 []).phase = .expand ∧ (expanding 0 3 []).idx.toNat = 0) ∧ (expanding 126 3 []).idx.toNat < 127 ∧
    ((expanding 127 3 []).idx.toNat = 127 ∧ (expanding 127 3 []).cmdr.getLsbD 1 = true) ∧
    ((expanding 127 1 []).idx.toNat = 127 ∧ (expanding 127 1 []).cmdr.getLsbD 1 = false) := by decide

theorem witness_XorStepHandlesOneIndex :
    ((xoring 0x800 []).phase = .xor ∧ (xoring 0x800 []).idx.toNat = 0x800 ∧ 0x800 < (xoring 0x800 []).len.toNat) ∧
    (xoring 0x802 []).idx.toNat < (xoring 0x802 []).len.toNat ∧
    ((xoring 0x803 []).phase = .xor ∧ (xoring 0x803 []).len.toNat ≤ (xoring 0x803 []).idx.toNat ∧
      (xoring 0x803 []).idx.toNat ≤ max 0x800 (xoring 0x803 []).len.toNat) := by decide

theorem witness_IdleBlockHasNoStep :
    State.reset.phase = .idle ∧ State.reset.script = [] ∧ (ready 0 [] [.block, .wait]).script = [.block, .wait] := by decide

theorem witness_BusyUntilLastMicroStep :
    Ready (ready 0x803#32 [] []) ∧ 1 ≤ 1 ∧ 1 < microSteps .xfrm (ready 0x803#32 [] []) ∧
    microSteps .xfrm (ready 0x803#32 [] []) = 5 ∧ microSteps .xfrm (ready 0x100#32 [] []) = 2 ∧
    microSteps .run (ready 0x820#32 [] []) = 162 ∧ microSteps .kexp (ready 0x410#32 [] []) = 129 ∧
    microSteps .nop (ready 0 [] []) = 1 := by decide

theorem witness_MicroStepsReachWholeCommand :
    Ready (ready 0x801#32 [] []) ∧ (∀ t ∈ [Turn.block, .regRead 0x01#8, .block], onlyWatches t) ∧
    microSteps .xfrm (ready 0x801#32 [] []) ≤ 1 + [Turn.block, .regRead 0x01#8, .block].count .block := by decide

/-- The invariant in the middle of an expansion and of a transform. -/
theorem expanding_inv : Inv (expanding 5 3 [.wait]) :=
  ⟨by decide, by decide, by decide, by decide, by decide, by decide, by decide⟩

theorem xoring_inv : Inv (xoring 0x802 [.wait]) :=
  ⟨by decide, by decide, by decide, by decide, by decide, by decide, by decide⟩

theorem witness_WaitEnds :
    (Inv (xoring 0x802 [.wait]) ∧ (xoring 0x802 [.wait]).script = [.wait] ∧ stepsLeft (xoring 0x802 [.wait]) = 2) ∧
    (Inv (expanding 5 3 [.wait]) ∧ (expanding 5 3 [.wait]).script = [.wait]) :=
  ⟨⟨xoring_inv, rfl, by decide⟩, expanding_inv, rfl⟩

/-- R87 and R88 at their last indices: KEXP at n = 127 has one step left, RUN at LEN = 0x820 also its 33 XOR steps. -/
theorem test_steps_left :
    [stepsLeft (expanding 127 1 []), stepsLeft (expanding 127 3 []), stepsLeft (xoring 0x803 []), stepsLeft State.reset] =
      [1, 34, 1, 0] := by decide

theorem witness_ResetMidTransformLeavesMixedImage :
    Ready (ready 0x803#32 [] []) ∧ 0 ≤ (ready 0x803#32 [] []).len.toNat - 0x800 ∧
    3 ≤ (ready 0x803#32 [] []).len.toNat - 0x800 := by decide

theorem witness_StatusLegalValues : Inv (expanding 5 3 [.wait]) := expanding_inv

/-- Also of UnpermittedAccessRefused in the idle case. -/
theorem witness_PermittedRegisterAccess :
    ∀ turn ∈ [Turn.regRead 0x02#8, .regRead 0x03#8, .regRead 0x80#8, .regRead 0xFF#8, .regWrite 0x02#8 0,
        .regWrite 0x02#8 0xFFFFFFFF, .regWrite 0x80#8 0, .regWrite 0xFF#8 0xFF, .regRead 0x00#8, .regWrite 0x01#8 0,
        .regWrite 0x03#8 0, .regRead 0x04#8, .regRead 0x7F#8, .regWrite 0x04#8 0, .regWrite 0x7F#8 0, .regWrite 0x00#8 0x100,
        .regWrite 0x02#8 0x100000000, .regWrite 0x80#8 0x100, .regWrite 0xFF#8 0x100, .peek 0x100000000,
        .poke 0x100000000 0x01#8],
      (ready 0 [] [turn]).phase = .idle ∧ (ready 0 [] [turn]).script = [turn] := by decide

theorem witness_StatusReadAnyTime :
    (xoring 0x800 [.regRead 0x01#8]).script = [.regRead 0x01#8] ∧ (faulted [.regRead 0x01#8]).script = [.regRead 0x01#8] := by
  decide

theorem witness_UnpermittedAccessRefused_busy :
    ∀ turn ∈ [Turn.regRead 0x02#8, .regWrite 0x00#8 0x03, .command 0x00#8, .peek 0, .poke 0 0x00#8],
      (expanding 5 1 [turn]).phase ≠ .idle ∧ (expanding 5 1 [turn]).script = [turn] := by decide

theorem witness_BufReadsLastWrite :
    (0xFFFFFFFF < 2 ^ 32 ∧ (ready 0 [] [.poke 0xFFFFFFFF 0x01#8]).phase = .idle) ∧
    (ready 0 [] [.peek 0xFFFFFFFF]).script = [.peek 0xFFFFFFFF] ∧
    (2 ^ 32 ≤ 0x100000000 ∧ (ready 0 [] [.peek 0x100000000]).script = [.peek 0x100000000]) := by decide

theorem witness_CanonicalMemoriesEqual :
    Memory.wf [(0, 0x01#8), (0xFFFFFFFF, 0x02#8)] = true ∧
    Memory.wf (Memory.write (Memory.write [] 0xFFFFFFFF 0x02#8) 0 0x01#8) = true ∧
    ∀ a, Memory.read? [(0, 0x01#8), (0xFFFFFFFF, 0x02#8)] a =
      Memory.read? (Memory.write (Memory.write [] 0xFFFFFFFF 0x02#8) 0 0x01#8) a :=
  ⟨by decide, by decide, fun _ => rfl⟩

theorem witness_ResetEffect : (xoring 0x802 [.reset, .block]).script = [.reset, .block] := by decide

theorem witness_PhaseTransitions :
    (∃ t, step (expanding 127 3 []) = .next t ∧ t.phase = .xor) ∧ (∃ t, step (xoring 0x803 []) = .next t ∧ t.phase = .idle) ∧
    ∃ t, step (ready 0x410#32 [] [.regWrite 0 3]) = .next t ∧ t.phase = .expand :=
  ⟨⟨_, rfl, by decide +kernel⟩, ⟨_, rfl, by decide +kernel⟩, _, rfl, by decide +kernel⟩

theorem witness_KeyChangesOnlyByExpansionHostOrReset :
    ∃ t, step (ready 0 [] [.regWrite 0x80 1]) = .next t ∧ t.key ≠ (ready 0 [] [.regWrite 0x80 1]).key :=
  ⟨_, rfl, by decide +kernel⟩

theorem witness_LenChangesOnlyByHostOrReset :
    ∃ t, step (ready 0 [] [.regWrite 0x02 1]) = .next t ∧ t.len ≠ (ready 0 [] [.regWrite 0x02 1]).len :=
  ⟨_, rfl, by decide +kernel⟩

theorem witness_ChgChangesOnlyByTransformOrReset :
    ∃ t, step ((xoring 0x800 []).setKey 0 0x04#8) = .next t ∧ t.chg ≠ ((xoring 0x800 []).setKey 0 0x04#8).chg :=
  ⟨_, rfl, by decide +kernel⟩

theorem witness_ChgChangesOnlyByTransformOrReset_run :
    ∃ t, step { ready 0x410#32 seedK1 [.command 0x03#8] with chg := 7 } = .next t ∧ t.chg ≠ 7 := by
  refine ⟨_, rfl, ?_⟩
  decide +kernel

theorem witness_BlockWritesInsideTransformRegionOnly :
    (∃ t, step ((xoring 0x800 []).setKey 0 0x04#8) = .next t ∧
      t.bufByte 0x800 ≠ ((xoring 0x800 []).setKey 0 0x04#8).bufByte 0x800) ∧
    ∃ t, step (ready 0 [(0, 0x01#8)] [.poke 0 0x02#8]) = .next t ∧
      t.bufByte 0 ≠ (ready 0 [(0, 0x01#8)] [.poke 0 0x02#8]).bufByte 0 :=
  ⟨⟨_, rfl, by decide +kernel⟩, _, rfl, by decide +kernel⟩

theorem witness_StepKeepsInvariant :
    (Inv (expanding 5 3 [.wait]) ∧ ∃ t, step (expanding 5 3 [.wait]) = .next t) ∧
    (Inv (xoring 0x802 [.wait]) ∧ ∃ t, step (xoring 0x802 [.wait]) = .next t) :=
  ⟨⟨expanding_inv, _, rfl⟩, xoring_inv, _, rfl⟩

theorem witness_SequencerStaysInRange : Inv (xoring 0x802 [.wait]) := xoring_inv

/-- A permitted and a forbidden turn for each row of R17 and for BUF, at the edges; the busy block last. -/
theorem witness_HostAccessHasMeaningExactlyWhenPermitted :
    (∀ turn ∈ [Turn.command 0xFF#8, .regRead 0x01#8, .regRead 0x02#8, .regRead 0x03#8, .regRead 0x80#8, .regRead 0xFF#8,
        .regWrite 0x00#8 0xFF, .regWrite 0x02#8 0xFFFFFFFF, .regWrite 0x80#8 0xFF, .regWrite 0xFF#8 0, .peek 0xFFFFFFFF,
        .poke 0xFFFFFFFF 0x01#8, .reset],
      (ready 0 [] [turn]).script = [turn] ∧ turn ≠ .block ∧ turn ≠ .wait ∧ permitted turn (ready 0 [] [turn]) = true) ∧
    (∀ turn ∈ [Turn.regRead 0x00#8, .regRead 0x04#8, .regRead 0x7F#8, .regWrite 0x00#8 0x100, .regWrite 0x01#8 0,
        .regWrite 0x02#8 0x100000000, .regWrite 0x03#8 0, .regWrite 0x04#8 0, .regWrite 0x7F#8 0, .regWrite 0x80#8 0x100,
        .peek 0x100000000, .poke 0x100000000 0x01#8],
      (ready 0 [] [turn]).script = [turn] ∧ turn ≠ .block ∧ turn ≠ .wait ∧ permitted turn (ready 0 [] [turn]) = false) ∧
    (∀ turn ∈ [Turn.command 0x00#8, .regRead 0x02#8, .regWrite 0x00#8 0x00, .peek 0, .poke 0 0x00#8],
      permitted turn (expanding 5 1 [turn]) = false) ∧
    permitted (.regRead 0x01#8) (expanding 5 1 [.regRead 0x01#8]) = true ∧ permitted .reset (xoring 0x800 [.reset]) = true := by
  decide

end Sys2Proof.Tests
end

/-! The legal transitions of PHASE (R14). Of the pairs of phases R14 leaves out only the move from XOR to EXPAND, so it is enough
to follow a step that is taken in phase XOR. -/

namespace Sys2Proof.Machine

/-- A command that answers next was presented to an idle block (R28, R84). -/
theorem exec_next_idle (i : Instr) (s t : State) (h : exec i s = .next t) : s.phase = .idle := by
  cases i <;> simp only [exec, execNop, execKexp, execXfrm, execRun] at h <;> exact (present_next _ s t h).1

/-- A host command that answers next, defined or reserved, was presented to an idle block (R28, R84). -/
theorem hostCommand_next_idle (w : Byte) (s t : State) (h : hostCommand exec w s = .next t) : s.phase = .idle := by
  obtain ⟨i, -, e⟩ | ⟨-, e⟩ := hostCommand_cases exec w s
  · exact exec_next_idle i s t (e ▸ h)
  · exact (present_next _ s t (e ▸ h)).1

/-- An XOR step ends the phase when the index has reached LEN, and stays in it before (R88). -/
theorem xorMicro_phase (s : State) :
    (xorMicro s).phase = if s.len.toNat ≤ s.idx.toNat then .idle else s.phase := by
  unfold xorMicro complete
  split <;> simp

/-- The block's step in phase XOR never goes back to EXPAND (R88). -/
theorem blockStep_phase_of_xor (s t : State) (hx : s.phase = .xor) (h : blockStep s = .next t) :
    t.phase = .xor ∨ t.phase = .idle := by
  obtain ⟨hp, -⟩ | ⟨hp, -⟩ | ⟨-, -, -, e⟩ | ⟨-, e⟩ := blockStep_cases s
  · simp [hx] at hp
  · simp [hx] at hp
  · rw [e] at h
    cases h
    rw [xorMicro_phase]
    split
    · exact .inr rfl
    · exact .inl hx
  · simp [e] at h

/-- A step taken in phase XOR stays in it or ends in IDLE: the block's own step, a read of STATUS or reset are all that can
happen, every other access of the host being refused (R14, R28). -/
theorem step_phase_of_xor (s t : State) (hx : s.phase = .xor) (h : step s = .next t) :
    t.phase = .xor ∨ t.phase = .idle := by
  have not_idle : s.phase ≠ .idle := by simp [hx]
  obtain ⟨ts, hb, -⟩ | ⟨w, rest, -, hc⟩ | ⟨n, rest, v, -, rfl⟩ | ⟨n, v, rest, -, hw⟩ | ⟨a, rest, v, -, rfl⟩ |
    ⟨a, v, rest, -, hp⟩ | ⟨rest, -, hidle, -⟩ | ⟨rest, -, rfl⟩ := step_next s t h
  · exact blockStep_phase_of_xor (s.setScript ts) t hx hb
  · exact absurd (hostCommand_next_idle w _ t hc) not_idle
  · exact .inl hx
  · exact absurd (hostRegWrite_next n v _ t hw).1 not_idle
  · exact .inl hx
  · exact absurd (hostPoke_next a v _ t hp).1 not_idle
  · exact absurd hidle not_idle
  · exact .inr rfl

/-- Settles O47: every move out of IDLE or EXPAND is a legal one, and a step in phase XOR does not reach EXPAND. -/
theorem phaseTransitions : Obligations.PhaseTransitions := by
  intro s t h
  cases hs : s.phase with
  | idle => cases t.phase <;> decide
  | expand => cases t.phase <;> decide
  | xor => obtain ht | ht := step_phase_of_xor s t hs h <;> simp [ht]

end Sys2Proof.Machine

/-! What changes K (R40). Each of the block's parts but the Key Expander leaves K alone, and of the host's accesses only the
write of a key register touches it. -/

namespace Sys2Proof.Machine

/-- The accept step starts a command; the key is expanded by the steps after it (R86). -/
@[simp] theorem acceptWord_key (w : Byte) (s : State) : (acceptWord w s).key = s.key := by
  obtain ⟨-, e⟩ | ⟨-, -, e⟩ | ⟨-, -, -, -, e⟩ | ⟨-, -, -, -, e⟩ | ⟨-, -, -, -, e⟩ | ⟨-, -, -, -, e⟩ :=
    acceptWord_cases w s <;>
    simp [e, raiseFault, enterXor]

/-- An XOR step only reads K (R67, R88). -/
@[simp] theorem xorMicro_key (s : State) : (xorMicro s).key = s.key := by
  unfold xorMicro complete
  split <;> simp

/-- The whole transform only reads K (R66, R67). -/
@[simp] theorem transformImage_key (s : State) : (transformImage s).key = s.key := by
  simp [transformImage]

/-- Outside phase EXPAND the block's step leaves K alone (R87 to R89). -/
theorem blockStep_key_of_not_expand (s t : State) (hp : s.phase ≠ .expand) (h : blockStep s = .next t) : t.key = s.key := by
  obtain ⟨-, e⟩ | ⟨hx, -⟩ | ⟨-, -, -, e⟩ | ⟨-, e⟩ := blockStep_cases s
  · rw [e] at h
    cases h
    rfl
  · exact absurd hx hp
  · rw [e] at h
    cases h
    exact xorMicro_key s
  · simp [e] at h

/-- A presented word whose own effect leaves K alone leaves it alone (R84, R102). -/
theorem present_key (act : State → State) (hact : ∀ u, (act u).key = u.key) (s t : State)
    (h : present act s = .next t) : t.key = s.key := by
  obtain ⟨-, ⟨-, rfl⟩ | ⟨-, rfl⟩⟩ := present_next act s t h
  · rfl
  · simp [hact]

/-- Of the commands only those with `EXP = 1` can change K (R40). -/
theorem exec_key_of_ne_kexp_run (i : Instr) (s t : State) (hk : i ≠ .kexp) (hr : i ≠ .run) (h : exec i s = .next t) :
    t.key = s.key := by
  cases i with
  | nop =>
    simp only [exec, execNop] at h
    exact present_key _ (by simp) s t h
  | kexp => exact absurd rfl hk
  | xfrm =>
    simp only [exec, execXfrm] at h
    exact present_key _ (by simp) s t h
  | run => exact absurd rfl hr

/-- A host command, defined or reserved, that changes K is the word of KEXP or of RUN (R40, R47). -/
theorem hostCommand_word_of_key_ne (w : Byte) (s t : State) (h : hostCommand exec w s = .next t) (hne : t.key ≠ s.key) :
    w = 0x01#8 ∨ w = 0x03#8 := by
  obtain ⟨i, rfl, e⟩ | ⟨-, e⟩ := hostCommand_cases exec w s
  · by_cases hk : i = .kexp
    · exact .inl (by rw [hk]; decide)
    · by_cases hr : i = .run
      · exact .inr (by rw [hr]; decide)
      · exact absurd (exec_key_of_ne_kexp_run i s t hk hr (e ▸ h)) hne
  · exact absurd (present_key _ (by simp [raiseFault]) s t (e ▸ h)) hne

/-- A register write that changes K is a write of a key register (R17, R40). -/
theorem hostRegWrite_num_of_key_ne (n : RegNum) (v : Nat) (s t : State) (h : hostRegWrite n v s = .next t) (hne : t.key ≠ s.key) :
    0x80 ≤ n.toNat := by
  obtain ⟨-, ⟨-, -, rfl⟩ | ⟨-, -, rfl⟩ | ⟨hn, -⟩⟩ := hostRegWrite_next n v s t h
  · simp at hne
  · simp at hne
  · exact hn

/-- Settles O48: of the agents of a step only an EXPAND step, KEXP or RUN as a whole, the write of a key register and reset do
not keep K. -/
theorem keyChangesOnlyByExpansionHostOrReset : Obligations.KeyChangesOnlyByExpansionHostOrReset := by
  intro s t h hne
  obtain ⟨ts, hb, -⟩ | ⟨w, rest, hs, hc⟩ | ⟨n, rest, v, -, rfl⟩ | ⟨n, v, rest, hs, hw⟩ | ⟨a, rest, v, -, rfl⟩ |
    ⟨a, v, rest, -, hp⟩ | ⟨rest, -, -, rfl⟩ | ⟨rest, hs, -⟩ := step_next s t h
  · by_cases hx : s.phase = .expand
    · exact .inl hx
    · exact absurd (blockStep_key_of_not_expand (s.setScript ts) t hx hb) hne
  · obtain rfl | rfl := hostCommand_word_of_key_ne w _ t hc hne
    · exact .inr (.inl ⟨rest, .inl hs⟩)
    · exact .inr (.inl ⟨rest, .inr hs⟩)
  · simp at hne
  · exact .inr (.inr (.inl ⟨n, v, rest, hostRegWrite_num_of_key_ne n v _ t hw hne, hs⟩))
  · simp at hne
  · obtain ⟨-, -, rfl⟩ := hostPoke_next a v _ t hp
    simp at hne
  · simp at hne
  · exact .inr (.inr (.inr ⟨rest, hs⟩))

end Sys2Proof.Machine

/-! The two rotations bit by bit (R53, R54): each is a move of the bit's index round the byte. -/

namespace Sys2Proof.Machine

/-- Bit 0 of a left rotation comes from the top bit, every other bit from the one below it (R53). -/
theorem rol8_getLsbD (v : Byte) (j : Nat) (hj : j < 8) :
    (rol8 v).getLsbD j = if j = 0 then v.getLsbD 7 else v.getLsbD (j - 1) := by
  unfold rol8
  split
  · subst j
    simp
  · have h_above : v.getLsbD (7 + j) = false := v.getLsbD_of_ge _ (by omega)
    simp [hj, h_above, show ¬ j < 1 by omega, BitVec.getLsbD_eq_getElem (show j - 1 < 8 by omega)]

/-- Bit 7 of a right rotation comes from bit 0, every other bit from the one above it (R54). -/
theorem ror8_getLsbD (v : Byte) (j : Nat) (hj : j < 8) :
    (ror8 v).getLsbD j = if j = 7 then v.getLsbD 0 else v.getLsbD (j + 1) := by
  unfold ror8
  split
  · subst j
    simp
  · simp [show j < 7 by omega, Nat.add_comm]

/-- Settles O11: the formula of R54 is the model's own, that of R53 up to its mask, and the bits are those of the two
rotations. -/
theorem rotationBits : Obligations.RotationBits := by
  intro v
  refine ⟨?_, ?_, fun j h1 h7 => ?_, rfl, ?_, fun j h6 => ?_⟩
  · have mask_idle : v <<< 1 &&& 0xFF#8 = v <<< 1 := BitVec.and_allOnes
    rw [mask_idle, rol8]
  · exact rol8_getLsbD v 0 (by decide)
  · rw [rol8_getLsbD v j (by omega), if_neg (by omega)]
  · exact ror8_getLsbD v 7 (by decide)
  · rw [ror8_getLsbD v j (by omega), if_neg (by omega)]

end Sys2Proof.Machine

/-! What K holds after KEXP (R57, R60): the expansion of the seed, whatever else the state holds. -/

namespace Sys2Proof.Machine

/-- In a ready block with a long enough image KEXP latches the command, expands the key and sets DONE (R57). -/
theorem exec_kexp_of_long (s : State) (hs : Ready s) (hl : 0x410 ≤ s.len.toNat) :
    exec .kexp s = .next ((expandKey ((s.setDone false).setCmdr 0b01#2)).setDone true) := by
  obtain ⟨hp, he⟩ := hs
  rw [exec, execKexp, present_ready _ s hp he, withLengthCheck_long _ _ (by simpa using hl)]

/-- KEXP on a long enough image leaves K = expand(seed) (R57). -/
theorem exec_kexp_key (s : State) (hs : Ready s) (hl : 0x410 ≤ s.len.toNat) :
    ∃ t, exec .kexp s = .next t ∧ t.key = expand (seedOf s) :=
  ⟨_, exec_kexp_of_long s hs hl, by simp [expandKey_key]⟩

/-- Two states with the same 16 bytes at 0x400 have the same seed (R30). -/
theorem seedOf_congr (s₁ s₂ : State) (h : ∀ n, n < 16 → s₁.bufByte (0x400 + n) = s₂.bufByte (0x400 + n)) :
    seedOf s₁ = seedOf s₂ := by
  refine Vector.ext fun n hn => ?_
  rw [seedOf_getElem s₁ n hn, seedOf_getElem s₂ n hn, h n hn]

/-- Settles O14: both runs leave the expansion of their seed in K, and the seeds are equal. -/
theorem kexpDependsOnSeedOnly : Obligations.KexpDependsOnSeedOnly := by
  intro s₁ s₂ hs₁ hs₂ hl₁ hl₂ hseed
  obtain ⟨t₁, e₁, hk₁⟩ := exec_kexp_key s₁ hs₁ hl₁
  obtain ⟨t₂, e₂, hk₂⟩ := exec_kexp_key s₂ hs₂ hl₂
  exact ⟨t₁, t₂, e₁, e₂, by rw [hk₁, hk₂, seedOf_congr s₁ s₂ hseed]⟩

end Sys2Proof.Machine

/-! What XFRM leaves in CHG and in the event history (R68): a byte is stored when step 6 of R65 is reached, and its value changes
when, beyond that, its key byte is not 0x00. -/

namespace Sys2Proof.Machine

/-- The transform writes the XOR where step 6 is reached, and leaves the byte elsewhere (R64, R65). -/
theorem xf_eq_ite_stores (b k : Byte) : xf b k = if stores b k then b ^^^ k else b := by
  unfold xf stores
  by_cases hb : isSentinel b = true
  · simp [hb]
  · by_cases hx : isSentinel (b ^^^ k) = true <;> simp [hb, hx]

/-- A store changes the value unless the key byte is 0x00 (R68). -/
theorem xf_ne_self_iff (b k : Byte) : xf b k ≠ b ↔ stores b k = true ∧ k ≠ 0x00#8 := by
  have xor_self_iff : b ^^^ k = b ↔ k = 0x00#8 := by
    simp
  rw [xf_eq_ite_stores]
  by_cases h : stores b k = true <;> simp [h, xor_self_iff]

/-- Under a key byte 0x00 every byte but a sentinel is stored, with the value it had (R64, R68). -/
theorem stores_zero (b : Byte) : stores b 0x00#8 = !isSentinel b := by
  simp [stores]

/-- The events of one index of the transform, oldest first: the read, then the write if step 6 is reached (R33, R65). -/
def xorAccesses (s : State) (i : Nat) : List Access :=
  .memRead i (s.bufByte i) ::
    (if stores (s.bufByte i) (s.keyAt i) then [.memWrite i (s.bufByte i ^^^ s.keyAt i)] else [])

theorem xfrmAccesses_eq_flatMap (s : State) : xfrmAccesses s = (indices s).flatMap (xorAccesses s) := rfl

theorem xorAt_trace_eq_accesses (i : Nat) (s : State) : (xorAt i s).trace = (xorAccesses s i).reverse ++ s.trace := by
  rw [xorAt_trace, ← stores]
  by_cases h : stores (s.bufByte i) (s.keyAt i) = true <;> simp [xorAccesses, h]

/-- Each index of the loop meets the byte the loop started with, so the history is that of the first state's bytes (R37, R76). -/
theorem xorLoop_trace (c i : Nat) (s : State) :
    (xorLoop c i s).trace = ((List.range' i c).flatMap (xorAccesses s)).reverse ++ s.trace := by
  induction c with
  | zero => simp [xorLoop]
  | succ c ih =>
    have last_unchanged : xorAccesses (xorLoop c i s) (i + c) = xorAccesses s (i + c) := by
      simp [xorAccesses, xorLoop_bufByte]
    rw [xorLoop_succ_last, xorAt_trace_eq_accesses, last_unchanged, ih, List.range'_1_concat]
    simp

theorem transformImage_trace (s : State) : (transformImage s).trace = (xfrmAccesses s).reverse ++ s.trace := by
  have accesses_setChg : xorAccesses (s.setChg 0#32) = xorAccesses s := rfl
  simp [transformImage, xorLoop_trace, xfrmAccesses_eq_flatMap, indices, accesses_setChg]

/-- The history of some indices holds one write for each at which step 6 is reached. -/
theorem countP_isMemWrite_accesses (s : State) (l : List Nat) :
    (l.flatMap (xorAccesses s)).countP Access.isMemWrite = l.countP (fun i => stores (s.bufByte i) (s.keyAt i)) := by
  induction l with
  | nil => rfl
  | cons i l ih =>
    rw [List.flatMap_cons, List.countP_append, ih, List.countP_cons, Nat.add_comm]
    by_cases h : stores (s.bufByte i) (s.keyAt i) = true <;> simp [xorAccesses, h, Access.isMemWrite]

/-- The stores are those that change a value and those of the non-sentinel bytes under a key byte 0x00 (R68). -/
theorem countP_stores (s : State) (l : List Nat) :
    l.countP (fun i => stores (s.bufByte i) (s.keyAt i)) =
      l.countP (fun i => xf (s.bufByte i) (s.keyAt i) != s.bufByte i) +
        l.countP (fun i => !isSentinel (s.bufByte i) && s.keyAt i == 0x00#8) := by
  rw [List.countP_eq_countP_filter_add l _ (fun i => s.keyAt i != 0x00#8), List.countP_filter, List.countP_filter]
  congr 1
  · refine List.countP_congr fun i _ => ?_
    simp [xf_ne_self_iff]
  · refine List.countP_congr fun i _ => ?_
    by_cases hk : s.keyAt i = 0x00#8 <;> simp [hk, stores_zero]

/-- In a ready block XFRM latches the command, transforms the image and sets DONE, for every LEN (R66, R69). -/
theorem exec_xfrm_of_ready (s : State) (hs : Ready s) :
    exec .xfrm s = .next ((transformImage ((s.setDone false).setCmdr 0b10#2)).setDone true) := by
  obtain ⟨hp, he⟩ := hs
  rw [exec, execXfrm, present_ready _ s hp he]

/-- A transform's history holds a write for each byte counted in CHG and one for each non-sentinel byte under a key byte 0x00
(R68). -/
theorem countP_isMemWrite_transform (s : State) :
    (xfrmAccesses s).countP Access.isMemWrite =
      (transformImage s).chg.toNat + (indices s).countP (fun i => !isSentinel (s.bufByte i) && s.keyAt i == 0x00#8) := by
  have chg_eq : (transformImage s).chg.toNat = (indices s).countP (fun i => xf (s.bufByte i) (s.keyAt i) != s.bufByte i) := by
    have no_overflow : s.len.toNat - 0x800 < 2 ^ 32 := by omega
    simpa [transformImage, indices] using xorLoop_chg_toNat _ 0x800 (s.setChg 0#32) rfl no_overflow
  rw [xfrmAccesses_eq_flatMap, countP_isMemWrite_accesses, countP_stores, chg_eq]

/-! Latching the command changes nothing the transform works on. -/

@[simp] theorem indices_latched (s : State) (b : Bool) (m : BitVec 2) : indices ((s.setDone b).setCmdr m) = indices s := (rfl)
@[simp] theorem xfrmAccesses_latched (s : State) (b : Bool) (m : BitVec 2) :
    xfrmAccesses ((s.setDone b).setCmdr m) = xfrmAccesses s := (rfl)

/-- Settles O20: CHG and the history are those of the transform, whose stores are counted index by index. -/
theorem xfrmCountsChangedBytes : Obligations.XfrmCountsChangedBytes := by
  intro s hs
  refine ⟨_, (xfrmAccesses s).reverse, exec_xfrm_of_ready s hs, ?_, ?_, ?_⟩
  · simp [transformImage_trace]
  · simp [transformImage_chg_toNat, indices]
  · simpa using countP_isMemWrite_transform ((s.setDone false).setCmdr 0b10#2)

end Sys2Proof.Machine

/-! Sentinel bytes under the commands that transform (R72, R73): what a command leaves at an offset is the byte it found there or
its image under `xf`, and `xf` moves no byte into or out of the sentinels. -/

namespace Sys2Proof.Machine

theorem xf_of_isSentinel (b k : Byte) (h : isSentinel b = true) : xf b k = b := by
  simp [xf, h]

/-- The transform leaves a sentinel exactly where it found one (R72, R73). -/
theorem isSentinel_xf (b k : Byte) : isSentinel (xf b k) = isSentinel b := by
  unfold xf
  by_cases hb : isSentinel b = true
  · simp [hb]
  · by_cases hx : isSentinel (b ^^^ k) = true <;> simp [hb, hx]

/-- In a ready block with a long enough image RUN latches the command, expands the key, transforms the image and sets DONE
(R79). -/
theorem exec_run_of_long (s : State) (hs : Ready s) (hl : 0x410 ≤ s.len.toNat) :
    exec .run s = .next ((transformImage (expandKey ((s.setDone false).setCmdr 0b11#2))).setDone true) := by
  obtain ⟨hp, he⟩ := hs
  rw [exec, execRun, present_ready _ s hp he, withLengthCheck_long _ _ (by simpa using hl)]

/-- A whole transform leaves at every offset the byte it found or its image under `xf` (R65, R66). -/
theorem transformImage_bufByte_cases (s : State) (x : Nat) :
    (transformImage s).bufByte x = s.bufByte x ∨ ∃ k, (transformImage s).bufByte x = xf (s.bufByte x) k := by
  rw [transformImage_bufByte]
  split
  · exact .inr ⟨_, rfl⟩
  · exact .inl rfl

@[simp] theorem expandKey_bufByte (s : State) (x : Nat) : (expandKey s).bufByte x = s.bufByte x := by
  simp [expandKey]

/-- XFRM, and RUN on a long enough image, complete and leave at every offset the byte they found or its image under `xf`. -/
theorem exec_transform_bufByte_cases (s : State) (c : Instr) (hs : Ready s)
    (hc : c = .xfrm ∨ c = .run ∧ 0x410 ≤ s.len.toNat) :
    ∃ t, exec c s = .next t ∧ ∀ i, t.bufByte i = s.bufByte i ∨ ∃ k, t.bufByte i = xf (s.bufByte i) k := by
  obtain rfl | ⟨rfl, hl⟩ := hc
  · refine ⟨_, exec_xfrm_of_ready s hs, fun i => ?_⟩
    simpa using transformImage_bufByte_cases ((s.setDone false).setCmdr 0b10#2) i
  · refine ⟨_, exec_run_of_long s hs hl, fun i => ?_⟩
    simpa using transformImage_bufByte_cases (expandKey ((s.setDone false).setCmdr 0b11#2)) i

/-- Settles O22: at an offset that is not left alone the new byte is one of `xf`, which keeps a sentinel and makes none. -/
theorem sentinelsPreservedAndNeverIntroduced : Obligations.SentinelsPreservedAndNeverIntroduced := by
  intro s c hs hc
  obtain ⟨t, e, ht⟩ := exec_transform_bufByte_cases s c hs hc
  refine ⟨t, e, fun i _ => ?_⟩
  rw [← isSentinel_iff, ← not_or, ← isSentinel_iff]
  obtain same | ⟨k, hk⟩ := ht i
  · exact ⟨fun _ => same, fun hne => absurd same hne⟩
  · rw [hk, isSentinel_xf]
    exact ⟨xf_of_isSentinel _ k, fun hne hsent => hne (xf_of_isSentinel _ k hsent)⟩

end Sys2Proof.Machine

/-! The two commands of the Pipeline Unit that move no byte of BUF (42_pipeline.md): RUN on an image that ends before the
transform region (R81), and NOP (R83). -/

namespace Sys2Proof.Machine

/-! What the expansion leaves alone: it writes K, IDX and the event history (R57). -/

@[simp] theorem expandKey_len (s : State) : (expandKey s).len = s.len := by
  simp [expandKey]
@[simp] theorem expandKey_buf (s : State) : (expandKey s).buf = s.buf := by
  simp [expandKey]
@[simp] theorem expandKey_err (s : State) : (expandKey s).err = s.err := by
  simp [expandKey]

/-- A transform whose region is empty clears CHG and sets IDX to its base 0x800; nothing else changes (R66, R91). -/
theorem transformImage_of_empty_region (s : State) (h : s.len.toNat ≤ 0x800) :
    transformImage s = (s.setChg 0#32).setIdx 0x800#32 := by
  have zero_indices : s.len.toNat - 0x800 = 0 := Nat.sub_eq_zero_of_le h
  have idx_base : max 0x800 s.len.toNat = 0x800 := Nat.max_eq_left h
  rw [transformImage, zero_indices, idx_base, xorLoop]

/-- Settles O28: behind the expansion, which leaves BUF alone, the transform of an empty region only clears CHG and moves IDX. -/
theorem runWithNothingToTransform : Obligations.RunWithNothingToTransform := by
  intro s hs hmin hmax
  have empty_region : (expandKey ((s.setDone false).setCmdr 0b11#2)).len.toNat ≤ 0x800 := by simpa using hmax
  have run_eq := exec_run_of_long s hs hmin
  rw [transformImage_of_empty_region _ empty_region] at run_eq
  obtain ⟨-, no_fault⟩ := hs
  exact ⟨_, run_eq, by simp [expandKey_key], by simp, by simp, by simp, by simpa using no_fault⟩

/-- In a ready block NOP latches its command and sets DONE (R83, R86). -/
theorem exec_nop_of_ready (s : State) (hs : Ready s) :
    exec .nop s = .next (((s.setDone false).setCmdr 0b00#2).setDone true) := by
  obtain ⟨hp, he⟩ := hs
  rw [exec, execNop, present_ready _ s hp he]

/-- Settles O5: a ready block latches NOP and sets DONE; a faulted block ignores the word. -/
theorem nopCompletes : Obligations.NopCompletes := by
  refine ⟨exec_nop_of_ready, fun s idle fault => ?_⟩
  rw [exec, execNop, present_faulted _ s idle fault]

end Sys2Proof.Machine

/-! What an idle block does (43_microsteps.md section 2): the accept step when a word is written to CMD (R86), nothing of its
own (R89). -/

namespace Sys2Proof.Machine

/-- The host's write of a word to CMD of an idle block is the accept step (R18, R86): register 0x00 is CMD, and every word fits
it. -/
theorem step_of_cmd_write (s : State) (w : Byte) (rest : List Turn) (idle : s.phase = .idle)
    (next : s.script = .regWrite 0x00#8 w.toNat :: rest) : step s = .next (acceptWord w (s.setScript rest)) := by
  have not_busy : busy s = false := (busy_eq_false_iff s).2 idle
  have word_fits : fits .cmd w.toNat = true := (fits_iff _ _).2 w.isLt
  rw [step_cons s _ rest next]
  simp [takeTurn, hostRegWrite, not_busy, regOf, word_fits]

/-- Settles O30: the write is the accept step. At whichever line the accept step ends, the facts that lead there rule out the
five other clauses, and the state it leaves is the one of its own clause. -/
theorem acceptStepLines : Obligations.AcceptStepLines := by
  intro s w rest idle next
  rw [step_of_cmd_write s w rest idle next]
  simp only [← rsvField.eq_1, ← expField.eq_1, ← xfmField.eq_1]
  obtain ⟨(fault : s.err ≠ 0#4), e⟩ | ⟨(ok : s.err = 0#4), reserved, e⟩ |
      ⟨(ok : s.err = 0#4), defined, expands, (short : s.len.toNat < 0x410), e⟩ |
      ⟨(ok : s.err = 0#4), defined, expands, (long : 0x410 ≤ s.len.toNat), e⟩ |
      ⟨(ok : s.err = 0#4), defined, no_expand, transforms, e⟩ |
      ⟨(ok : s.err = 0#4), defined, no_expand, no_transform, e⟩ := acceptWord_cases w (s.setScript rest) <;>
    rw [e]
  · simp [fault, State.setScript]
  · simp [ok, reserved, raiseFault_eq, State.setDone, State.setScript]
  · simp [ok, defined, expands, short, raiseFault_eq, State.setDone, State.setScript]
  · simp [ok, defined, expands, long, State.setIdx, State.setPhase, State.setCmdr, cmdrField, State.setDone,
      State.setScript]
  · simp [ok, defined, no_expand, transforms, enterXor_eq, State.setCmdr, cmdrField, State.setDone, State.setScript]
  · simp [ok, defined, no_expand, no_transform, State.setCmdr, cmdrField, State.setDone, State.setScript]

/-- Settles O33: the block's own step leaves an idle state, whether no turn is left or the turn is the block's. -/
theorem idleBlockHasNoStep : Obligations.IdleBlockHasNoStep := by
  intro s idle
  refine ⟨blockStep_idle s idle, fun no_turn => ?_, fun rest next => ?_⟩
  · rw [step_nil s no_turn, blockStep_idle s idle]
  · rw [step_cons s .block rest next]
    exact blockStep_idle (s.setScript rest) idle

end Sys2Proof.Machine

/-! Faults (60_exceptions.md). Only a word presented to a ready block records a fault, and fault entry (R99) is then the whole
effect of the step; reset is the only other step that moves ERR (R103). -/

namespace Sys2Proof.Machine

/-! What leaves ERR alone: the transform and the block's own steps. -/

@[simp] theorem transformImage_err (s : State) : (transformImage s).err = s.err := by
  simp [transformImage]

@[simp] theorem expandMicro_err (s : State) : (expandMicro s).err = s.err := by
  unfold expandMicro enterXor complete
  split
  · simp
  · split <;> simp

@[simp] theorem xorMicro_err (s : State) : (xorMicro s).err = s.err := by
  unfold xorMicro complete
  split <;> simp

/-- The block records no fault by a step of its own (R87 to R89). -/
theorem blockStep_err (s t : State) (h : blockStep s = .next t) : t.err = s.err := by
  obtain ⟨-, e⟩ | ⟨-, -, e⟩ | ⟨-, -, -, e⟩ | ⟨-, e⟩ := blockStep_cases s <;> rw [e] at h <;> cases h
  · rfl
  · exact expandMicro_err s
  · exact xorMicro_err s

/-! What presenting a word does to ERR. -/

/-- From `s` to `t` ERR is kept, or `s` was ready and `t` is the fault entry of R99 on it. -/
def KeepsErrOrFaults (s t : State) : Prop := t.err = s.err ∨ Ready s ∧ ∃ c, t = raiseFault c s

/-- A length-checked effect that keeps ERR keeps it behind the check, or the check faults (R58). -/
theorem withLengthCheck_keepsErrOrFaults (act : State → State) (hact : ∀ u, (act u).err = u.err) (s : State) (ready : Ready s) :
    KeepsErrOrFaults s (withLengthCheck act s) := by
  obtain ⟨-, e⟩ | ⟨-, e⟩ := withLengthCheck_cases act s
  · exact .inr ⟨ready, _, e⟩
  · exact .inl (e ▸ hact s)

/-- A presented word whose own effect keeps ERR or faults does so as a whole: clearing DONE first is part of fault entry. -/
theorem present_keepsErrOrFaults (act : State → State) (hact : ∀ u, Ready u → KeepsErrOrFaults u (act u))
    (s t : State) (h : present act s = .next t) : KeepsErrOrFaults s t := by
  obtain ⟨idle, ⟨-, rfl⟩ | ⟨ok, rfl⟩⟩ := present_next act s t h
  · exact .inl rfl
  · exact hact (s.setDone false) ⟨idle, ok⟩

/-- Every command is the presentation of an effect that keeps ERR or faults (R84). -/
theorem exec_eq_present (i : Instr) (s : State) :
    ∃ act, (∀ u, Ready u → KeepsErrOrFaults u (act u)) ∧ exec i s = present act s := by
  cases i <;> simp only [exec, execNop, execKexp, execXfrm, execRun]
  case nop => exact ⟨_, fun _ _ => .inl (by simp), rfl⟩
  case kexp => exact ⟨_, withLengthCheck_keepsErrOrFaults _ (by simp), rfl⟩
  case xfrm => exact ⟨_, fun _ _ => .inl (by simp), rfl⟩
  case run => exact ⟨_, withLengthCheck_keepsErrOrFaults _ (by simp), rfl⟩

/-- So is every word, defined or reserved (R48, R84). -/
theorem hostCommand_eq_present (w : Byte) (s : State) :
    ∃ act, (∀ u, Ready u → KeepsErrOrFaults u (act u)) ∧ hostCommand exec w s = present act s := by
  obtain ⟨i, -, e⟩ | ⟨-, e⟩ := hostCommand_cases exec w s <;> rw [e]
  · exact exec_eq_present i s
  · exact ⟨_, fun _ ready => .inr ⟨ready, _, rfl⟩, rfl⟩

theorem hostCommand_keepsErrOrFaults (w : Byte) (s t : State) (h : hostCommand exec w s = .next t) :
    KeepsErrOrFaults s t := by
  obtain ⟨act, hact, e⟩ := hostCommand_eq_present w s
  exact present_keepsErrOrFaults act hact s t (e ▸ h)

/-- Of the six lines of the accept step the two that fault are fault entry, and the others keep ERR (R86). -/
theorem acceptWord_keepsErrOrFaults (w : Byte) (s : State) (idle : s.phase = .idle) :
    KeepsErrOrFaults s (acceptWord w s) := by
  obtain ⟨-, e⟩ | ⟨ok, -, e⟩ | ⟨ok, -, -, -, e⟩ | ⟨-, -, -, -, e⟩ | ⟨-, -, -, -, e⟩ | ⟨-, -, -, -, e⟩ :=
    acceptWord_cases w s
  · exact .inl (by rw [e])
  · exact .inr ⟨⟨idle, ok⟩, _, e⟩
  · exact .inr ⟨⟨idle, ok⟩, _, e⟩
  · exact .inl (by simp [e])
  · exact .inl (by simp [e, enterXor])
  · exact .inl (by simp [e])

theorem hostRegWrite_keepsErrOrFaults (n : RegNum) (v : Nat) (s t : State) (h : hostRegWrite n v s = .next t) :
    KeepsErrOrFaults s t := by
  obtain ⟨idle, ⟨-, -, rfl⟩ | ⟨-, -, rfl⟩ | ⟨-, -, rfl⟩⟩ := hostRegWrite_next n v s t h
  · exact acceptWord_keepsErrOrFaults _ s idle
  · exact .inl rfl
  · exact .inl rfl

/-- What any step does to ERR: a step that is not reset keeps it, or is fault entry in a ready block on the state with the turn
taken off (R99, R103). -/
theorem step_err_cases (s t : State) (h : step s = .next t) :
    (∃ rest, s.script = .reset :: rest ∧ t = resetBlock (s.setScript rest)) ∨ t.err = s.err ∨
    (Ready s ∧ ∃ c turn rest, s.script = turn :: rest ∧ t = raiseFault c (s.setScript rest)) := by
  obtain ⟨ts, hb, -⟩ | ⟨w, rest, hs, hc⟩ | ⟨n, rest, v, -, rfl⟩ | ⟨n, v, rest, hs, hw⟩ | ⟨a, rest, v, -, rfl⟩ |
    ⟨a, v, rest, -, hp⟩ | ⟨rest, -, -, rfl⟩ | ⟨rest, hs, ht⟩ := step_next s t h
  · exact .inr (.inl (blockStep_err (s.setScript ts) t hb))
  · obtain kept | ⟨ready, c, faults⟩ := hostCommand_keepsErrOrFaults w _ t hc
    · exact .inr (.inl kept)
    · exact .inr (.inr ⟨ready, c, _, rest, hs, faults⟩)
  · exact .inr (.inl rfl)
  · obtain kept | ⟨ready, c, faults⟩ := hostRegWrite_keepsErrOrFaults n v _ t hw
    · exact .inr (.inl kept)
    · exact .inr (.inr ⟨ready, c, _, rest, hs, faults⟩)
  · exact .inr (.inl rfl)
  · obtain ⟨-, -, rfl⟩ := hostPoke_next a v _ t hp
    exact .inr (.inl rfl)
  · exact .inr (.inl rfl)
  · exact .inl ⟨rest, hs, ht⟩

/-- Settles O8: a step that records a fault is fault entry on the state with the turn taken off, and it needs a ready block. -/
theorem faultsArePrecise : Obligations.FaultsArePrecise := by
  refine ⟨fun w s t rest ready hs h fault => ?_, fun s t not_idle ok h => ?_⟩
  · obtain ⟨rest', reset_next, -⟩ | kept | ⟨-, c, turn, rest', hs', rfl⟩ := step_err_cases s t h
    · simp [reset_next] at hs
    · exact absurd (kept.trans ready.2) fault
    · obtain rfl : rest' = rest := by
        obtain hs | hs := hs <;> rw [hs] at hs' <;> cases hs' <;> rfl
      rfl
  · obtain ⟨rest, -, rfl⟩ | kept | ⟨⟨idle, -⟩, -⟩ := step_err_cases s t h
    · rfl
    · exact kept.trans ok
    · exact absurd idle not_idle

/-- Settles O10: while a fault is recorded the block is not ready, so no step faults, and one that is not reset
keeps ERR. -/
theorem errStaysUntilReset : Obligations.ErrStaysUntilReset := by
  intro s t fault h
  obtain ⟨rest, reset_next, rfl⟩ | kept | ⟨⟨-, ok⟩, -⟩ := step_err_cases s t h
  · exact .inr ⟨⟨rest, reset_next⟩, rfl, rfl, rfl, rfl⟩
  · exact .inl kept
  · exact absurd ok fault

/-! The two causes of a fault (R95, R96). -/

/-- A command with `EXP = 1` on a short image is fault entry with code 1 (R58, R95). -/
theorem exec_expanding_of_short (i : Instr) (hi : i = .kexp ∨ i = .run) (s : State) (hs : Ready s)
    (short : s.len.toNat < 0x410) : exec i s = .next (raiseFault insufficientLength s) := by
  obtain ⟨idle, ok⟩ := hs
  obtain rfl | rfl := hi
  · rw [exec, execKexp, present_ready _ s idle ok, withLengthCheck_short _ (s.setDone false) short]
    rfl
  · rw [exec, execRun, present_ready _ s idle ok, withLengthCheck_short _ (s.setDone false) short]
    rfl

/-- Settles O7: below 0x410 the length check faults; from there on, and without the check, the command completes and keeps
ERR = 0. -/
theorem shortImageRaisesInsufficientLength : Obligations.ShortImageRaisesInsufficientLength := by
  intro s ready
  have ok : s.err = 0#4 := ready.2
  refine ⟨fun short => ⟨?_, ?_⟩, fun long => ⟨?_, ?_⟩, ?_, ?_⟩
  · exact exec_expanding_of_short .kexp (.inl rfl) s ready short
  · exact exec_expanding_of_short .run (.inr rfl) s ready short
  · exact ⟨_, exec_kexp_of_long s ready long, by simpa using ok⟩
  · exact ⟨_, exec_run_of_long s ready long, by simpa using ok⟩
  · exact ⟨_, exec_xfrm_of_ready s ready, by simpa using ok⟩
  · exact ⟨_, exec_nop_of_ready s ready, by simpa using ok⟩

/-- Settles O6: as a whole command the word decodes to no command and is fault entry with code 2; through register CMD it is the
second line of the accept step. -/
theorem reservedWordRaisesIllegalCommand : Obligations.ReservedWordRaisesIllegalCommand := by
  intro s w rest ⟨idle, ok⟩ reserved
  refine ⟨fun next => ?_, fun next => ?_⟩
  · rw [step_cons s _ rest next, takeTurn, hostCommand, decodeWord_reserved w reserved]
    exact present_ready _ (s.setScript rest) idle ok
  · obtain ⟨-, reserved_line, -⟩ := acceptStepLines s w rest idle next
    exact reserved_line ok reserved

/-! A block with a recorded fault (R102). The host's accesses ask for an idle block only, whatever ERR is. -/

/-- Every word, defined or reserved, is ignored while a fault is recorded (R102). -/
theorem hostCommand_faulted (w : Byte) (s : State) (idle : s.phase = .idle) (fault : s.err ≠ 0#4) :
    hostCommand exec w s = .next s := by
  obtain ⟨act, -, e⟩ := hostCommand_eq_present w s
  rw [e, present_faulted act s idle fault]

/-- Register numbers from 0x80 name the key registers (R17). -/
theorem regOf_key (n : Nat) (hn : n < 128) : regOf (BitVec.ofNat 8 (0x80 + n)) = .key n := by
  have number : (BitVec.ofNat 8 (0x80 + n)).toNat = 0x80 + n := by
    rw [BitVec.toNat_ofNat]
    omega
  have ne_of_low (m : RegNum) (hm : m.toNat < 0x80) : BitVec.ofNat 8 (0x80 + n) ≠ m := by
    rintro rfl
    omega
  simp only [regOf, number]
  simp [ne_of_low]

/-- A register read that has a value records it and changes nothing else (R92). -/
theorem step_of_reg_read (s : State) (n : RegNum) (v : Nat) (rest : List Turn) (next : s.script = .regRead n :: rest)
    (value : readReg n s = .ok v) : step s = .next ((s.setScript rest).pushSeen v) := by
  have value : readReg n (s.setScript rest) = .ok v := value
  rw [step_cons s _ rest next, takeTurn, hostRegRead, value]

/-- In an idle block every key register reads its value (R12, R17). -/
theorem readReg_key (s : State) (idle : s.phase = .idle) (n : Nat) (hn : n < 128) :
    readReg (BitVec.ofNat 8 (0x80 + n)) s = .ok (s.keyAt n).toNat := by
  simp [readReg, regOf_key n hn, busy, idle]

/-- In an idle block LEN takes every word written to it (R23). -/
theorem hostRegWrite_len (s : State) (idle : s.phase = .idle) (v : Word) :
    hostRegWrite 0x02#8 v.toNat s = .next (s.setLen v) := by
  have word_fits : fits .len v.toNat = true := (fits_iff _ _).2 v.isLt
  simp [hostRegWrite, regOf, busy, idle, word_fits]

/-- In an idle block every key register takes every byte written to it (R12). -/
theorem hostRegWrite_key (s : State) (idle : s.phase = .idle) (n : Nat) (hn : n < 128) (v : Byte) :
    hostRegWrite (BitVec.ofNat 8 (0x80 + n)) v.toNat s = .next (s.setKey n v) := by
  have byte_fits : fits (.key n) v.toNat = true := (fits_iff _ _).2 v.isLt
  simp [hostRegWrite, regOf_key n hn, busy, idle, byte_fits]

theorem hostPeek_idle (s : State) (idle : s.phase = .idle) (a : Nat) (ha : a < 2 ^ 32) :
    hostPeek a s = .next (s.pushSeen (s.bufByte a).toNat) := by
  have not_busy : busy s = false := (busy_eq_false_iff s).2 idle
  rw [hostPeek, not_busy, if_neg Bool.false_ne_true, if_pos ha]

theorem hostPoke_idle (s : State) (idle : s.phase = .idle) (a : Nat) (v : Byte) (ha : a < 2 ^ 32) :
    hostPoke a v s = .next (s.setBuf (s.buf.write a v)) := by
  have not_busy : busy s = false := (busy_eq_false_iff s).2 idle
  rw [hostPoke, not_busy, if_neg Bool.false_ne_true, if_pos ha]

/-- Settles O9: both ways of presenting a word leave a faulted block alone, and the other accesses are those of any idle block. -/
theorem faultedBlockIgnoresWords : Obligations.FaultedBlockIgnoresWords := by
  intro s rest idle fault
  have idle' : (s.setScript rest).phase = .idle := idle
  refine ⟨fun w next => ?_, fun w next => ?_, fun v next => ?_, fun n v hn next => ?_, fun next => ?_, fun next => ?_,
    fun next => ?_, fun n hn next => ?_, fun a ha next => ?_, fun a v ha next => ?_⟩
  · rw [step_cons s _ rest next]
    exact hostCommand_faulted w _ idle' fault
  · obtain ⟨fault_line, -⟩ := acceptStepLines s w rest idle next
    exact fault_line fault
  · rw [step_cons s _ rest next]
    exact hostRegWrite_len _ idle' v
  · rw [step_cons s _ rest next]
    exact hostRegWrite_key _ idle' n hn v
  · exact step_of_reg_read s _ _ rest next (by simp [readReg, regOf])
  · exact step_of_reg_read s _ _ rest next (by simp [readReg, regOf, busy, idle])
  · exact step_of_reg_read s _ _ rest next (by simp [readReg, regOf, busy, idle])
  · exact step_of_reg_read s _ _ rest next (readReg_key s idle n hn)
  · rw [step_cons s _ rest next]
    exact hostPeek_idle _ idle' a ha
  · rw [step_cons s _ rest next]
    exact hostPoke_idle _ idle' a v ha

end Sys2Proof.Machine

/-! Reset (70_reset_and_hazards.md section 1). -/

namespace Sys2Proof.Machine

/-- The reset turn is the reset event on the state with the turn taken off, whatever that state is (R111). -/
theorem step_of_reset (s : State) (rest : List Turn) (next : s.script = .reset :: rest) :
    step s = .next (resetBlock (s.setScript rest)) := by
  rw [step_cons s _ rest next, takeTurn]

@[simp] theorem resetBlock_phase (s : State) : (resetBlock s).phase = .idle := rfl

@[simp] theorem resetBlock_script (s : State) : (resetBlock s).script = s.script := rfl

/-- After reset PHASE is IDLE, DONE and ERR are 0, so STATUS reads 0x00 (R19, R20, R27). -/
theorem resetBlock_statusWord (s : State) : statusWord (resetBlock s) = 0x00#8 := by
  simp [statusWord, busy, resetBlock, State.reset]

/-- Settles O45: the step is the reset event, which ends idle, and an idle block with no turn left has no step (R89). -/
theorem resetEffect : Obligations.ResetEffect := by
  intro s rest next
  refine ⟨resetBlock (s.setScript rest), step_of_reset s rest next, rfl, resetBlock_statusWord _, fun no_turn => ?_⟩
  obtain ⟨-, no_turn_no_step, -⟩ := idleBlockHasNoStep (resetBlock (s.setScript rest)) (by simp)
  exact no_turn_no_step (by simpa using no_turn)

end Sys2Proof.Machine

/-! The invariant (10_state.md section 4, 43_microsteps.md section 2). It says little of an idle block, so the commands and the
host's accesses are followed by what they leave in BUF, ERR and DONE; what it says of a busy block is kept by the block's own
steps. -/

namespace Sys2Proof.Machine

/-- Of an idle block the invariant asks a canonical BUF, a code of R22 and DONE clear beside a fault. -/
theorem inv_of_idle (s : State) (idle : s.phase = .idle) (wf : s.buf.wf = true) (code : s.err.toNat ≤ 2)
    (quiet : s.err ≠ 0#4 → s.done = false) : Inv s where
  bufWf := wf
  errCode := code
  errQuiet fault := ⟨idle, quiet fault⟩
  busyQuiet busy := absurd idle busy
  idxRange := by simp [idxInRange, idle]
  expandCmd expanding := by simp [idle] at expanding
  xorCmd xoring := by simp [idle] at xoring

/-- With no fault recorded an idle block needs a canonical BUF only. -/
theorem inv_of_ready (s : State) (idle : s.phase = .idle) (ok : s.err = 0#4) (wf : s.buf.wf = true) : Inv s :=
  inv_of_idle s idle wf (by simp [ok]) (absurd ok)

/-- What the invariant asks of a block in phase EXPAND (R87). -/
theorem inv_of_expand (s : State) (expanding : s.phase = .expand) (wf : s.buf.wf = true)
    (quiet : s.done = false ∧ s.err = 0#4) (range : s.idx.toNat ≤ 127)
    (cmd : s.cmdr.getLsbD 0 = true ∧ 0x410 ≤ s.len.toNat) : Inv s where
  bufWf := wf
  errCode := by simp [quiet]
  errQuiet fault := absurd quiet.2 fault
  busyQuiet _ := quiet
  idxRange := by simp [idxInRange, expanding, range]
  expandCmd _ := cmd
  xorCmd xoring := by simp [expanding] at xoring

/-- What the invariant asks of a block in phase XOR (R24, R88). -/
theorem inv_of_xor (s : State) (xoring : s.phase = .xor) (wf : s.buf.wf = true)
    (quiet : s.done = false ∧ s.err = 0#4) (range : 0x800 ≤ s.idx.toNat ∧ s.idx.toNat ≤ max 0x800 s.len.toNat)
    (cmd : s.cmdr.getLsbD 1 = true) (count : s.chg.toNat + 0x800 ≤ s.idx.toNat) : Inv s where
  bufWf := wf
  errCode := by simp [quiet]
  errQuiet fault := absurd quiet.2 fault
  busyQuiet _ := quiet
  idxRange := by simpa [idxInRange, xoring] using range
  expandCmd expanding := by simp [xoring] at expanding
  xorCmd _ := ⟨cmd, count⟩

/-- Fault entry with a code of R22 (R99). -/
theorem inv_raiseFault (s : State) (idle : s.phase = .idle) (wf : s.buf.wf = true) (c : BitVec 4) (code : c.toNat ≤ 2) :
    Inv (raiseFault c s) :=
  inv_of_idle _ idle wf code fun _ => rfl

/-- The invariant does not speak of the schedule or of the values read. -/
theorem Inv.withHost {s : State} (h : Inv s) (ts : List Turn) (vs : List Nat) : Inv (s.withHost ts vs) :=
  ⟨h.bufWf, h.errCode, h.errQuiet, h.busyQuiet, h.idxRange, h.expandCmd, h.xorCmd⟩

/-! The commands. -/

@[simp] theorem expandKey_phase (s : State) : (expandKey s).phase = s.phase := by
  simp [expandKey]

@[simp] theorem transformImage_phase (s : State) : (transformImage s).phase = s.phase := by
  simp [transformImage]

/-- The transform forms no offset outside the buffer space, so it keeps BUF canonical (R35). -/
theorem transformImage_bufWf (s : State) (wf : s.buf.wf = true) : (transformImage s).buf.wf = true := by
  have inside : Config.skip + (s.len.toNat - Config.skip) ≤ Config.bufSize := by
    have := s.len.isLt
    simp only [Config.skip, Config.bufSize]
    omega
  simpa [transformImage] using xorLoop_bufWf _ _ (s.setChg 0#32) inside wf

/-- A length-checked effect keeps the invariant where the effect does. -/
theorem inv_withLengthCheck (act : State → State) (s : State) (idle : s.phase = .idle) (wf : s.buf.wf = true)
    (hact : Inv (act s)) : Inv (withLengthCheck act s) := by
  obtain ⟨-, e⟩ | ⟨-, e⟩ := withLengthCheck_cases act s <;> rw [e]
  · exact inv_raiseFault s idle wf _ (by decide)
  · exact hact

/-- A presented word keeps the invariant if its own effect does in a ready block. -/
theorem inv_present (act : State → State) (hact : ∀ u, Ready u → u.buf.wf = true → Inv (act u)) (s t : State) (hs : Inv s)
    (h : present act s = .next t) : Inv t := by
  obtain ⟨idle, ⟨-, rfl⟩ | ⟨ok, rfl⟩⟩ := present_next act s t h
  · exact hs
  · exact hact (s.setDone false) ⟨idle, ok⟩ hs.bufWf

theorem inv_exec (i : Instr) (s t : State) (hs : Inv s) (h : exec i s = .next t) : Inv t := by
  cases i <;> simp only [exec, execNop, execKexp, execXfrm, execRun] at h <;>
    refine inv_present _ (fun u ready wf => ?_) s t hs h
  all_goals obtain ⟨idle, ok⟩ := ready
  case nop => exact inv_of_ready _ idle ok wf
  case kexp =>
    exact inv_withLengthCheck _ u idle wf (inv_of_ready _ (by simp [idle]) (by simp [ok]) (by simp [wf]))
  case xfrm => exact inv_of_ready _ (by simp [idle]) (by simp [ok]) (by simp [transformImage_bufWf, wf])
  case run =>
    exact inv_withLengthCheck _ u idle wf
      (inv_of_ready _ (by simp [idle]) (by simp [ok]) (by simp [transformImage_bufWf, wf]))

theorem inv_hostCommand (w : Byte) (s t : State) (hs : Inv s) (h : hostCommand exec w s = .next t) : Inv t := by
  obtain ⟨i, -, e⟩ | ⟨-, e⟩ := hostCommand_cases exec w s
  · exact inv_exec i s t hs (e ▸ h)
  · exact inv_present _ (fun u ready wf => inv_raiseFault u ready.1 wf _ (by decide)) s t hs (e ▸ h)

/-! The host's register writes. -/

/-- The two low bits of a word, as CMDR latches them, are its fields EXP and XFM (R16, R44). -/
theorem cmdrField_getLsbD (w : Byte) : (cmdrField w).getLsbD 0 = expField w ∧ (cmdrField w).getLsbD 1 = xfmField w := by
  simp [cmdrField, expField, xfmField]

/-- The accept step starts a phase at the bottom of its range, for a command that asks for it, or leaves the block idle (R86). -/
theorem inv_acceptWord (w : Byte) (s : State) (hs : Inv s) (idle : s.phase = .idle) : Inv (acceptWord w s) := by
  obtain ⟨latched_exp, latched_xfm⟩ := cmdrField_getLsbD w
  have wf := hs.bufWf
  obtain ⟨-, e⟩ | ⟨-, -, e⟩ | ⟨-, -, -, -, e⟩ | ⟨ok, -, exp, long, e⟩ | ⟨ok, -, -, xfm, e⟩ | ⟨ok, -, -, -, e⟩ :=
    acceptWord_cases w s <;> rw [e]
  · exact hs
  · exact inv_raiseFault _ idle wf _ (by decide)
  · exact inv_raiseFault _ idle wf _ (by decide)
  · exact inv_of_expand _ rfl wf ⟨rfl, ok⟩ (Nat.zero_le _) ⟨latched_exp.trans exp, long⟩
  · exact inv_of_xor _ rfl wf ⟨rfl, ok⟩ ⟨Nat.le_refl _, Nat.le_max_left _ _⟩ (latched_xfm.trans xfm) (Nat.le_refl _)
  · exact inv_of_ready _ idle ok wf

theorem inv_hostRegWrite (n : RegNum) (v : Nat) (s t : State) (hs : Inv s) (h : hostRegWrite n v s = .next t) : Inv t := by
  obtain ⟨idle, ⟨-, -, rfl⟩ | ⟨-, -, rfl⟩ | ⟨-, -, rfl⟩⟩ := hostRegWrite_next n v s t h
  · exact inv_acceptWord _ s hs idle
  · exact inv_of_idle _ idle hs.bufWf hs.errCode fun fault => (hs.errQuiet fault).2
  · exact inv_of_idle _ idle hs.bufWf hs.errCode fun fault => (hs.errQuiet fault).2

/-! The block's own steps. -/

/-- Below 127 the sequencer stays in EXPAND, at the next index (R87). -/
theorem expandMicro_of_lt (s : State) (below : s.idx.toNat < 127) :
    expandMicro s = (expandAt s.idx.toNat s).setIdx (s.idx + 1#32) := by
  rw [expandMicro, if_pos below]

/-- At 127 the sequencer starts the transform if the command asks for it (R87). -/
theorem expandMicro_of_last_xfm (s : State) (last : 127 ≤ s.idx.toNat) (xfm : s.cmdr.getLsbD 1 = true) :
    expandMicro s = enterXor (expandAt s.idx.toNat s) := by
  rw [expandMicro, if_neg (Nat.not_lt_of_le last), if_pos xfm]

/-- At 127 the command ends if it asks for no transform (R87). -/
theorem expandMicro_of_last (s : State) (last : 127 ≤ s.idx.toNat) (no_xfm : s.cmdr.getLsbD 1 = false) :
    expandMicro s = complete (expandAt s.idx.toNat s) := by
  rw [expandMicro, if_neg (Nat.not_lt_of_le last), if_neg (ne_true_of_eq_false no_xfm)]

/-- One EXPAND step does the expansion at IDX and moves the sequencer in one of three ways (R87). -/
theorem expandMicro_cases (s : State) :
    (s.idx.toNat < 127 ∧ expandMicro s = (expandAt s.idx.toNat s).setIdx (s.idx + 1#32)) ∨
    (s.cmdr.getLsbD 1 = true ∧ expandMicro s = enterXor (expandAt s.idx.toNat s)) ∨
    (s.cmdr.getLsbD 1 = false ∧ expandMicro s = complete (expandAt s.idx.toNat s)) := by
  obtain below | last := Nat.lt_or_ge s.idx.toNat 127
  · exact .inl ⟨below, expandMicro_of_lt s below⟩
  · cases xfm : s.cmdr.getLsbD 1
    · exact .inr (.inr ⟨rfl, expandMicro_of_last s last xfm⟩)
    · exact .inr (.inl ⟨rfl, expandMicro_of_last_xfm s last xfm⟩)

/-- At LEN an XOR step only ends the command (R88). -/
theorem xorMicro_of_le (s : State) (at_end : s.len.toNat ≤ s.idx.toNat) : xorMicro s = complete s := by
  rw [xorMicro, if_pos at_end]

/-- Below LEN an XOR step does the transform at IDX and goes to the next index (R88). -/
theorem xorMicro_of_lt (s : State) (below : s.idx.toNat < s.len.toNat) :
    xorMicro s = (xorAt s.idx.toNat s).setIdx (s.idx + 1#32) := by
  rw [xorMicro, if_neg (Nat.not_le_of_lt below)]

/-- IDX moves on without wrapping while it is below another word. -/
theorem toNat_succ_of_lt (v : Word) (b : Nat) (below : v.toNat < b) (hb : b < 2 ^ 32) : (v + 1#32).toNat = v.toNat + 1 := by
  rw [BitVec.toNat_add, BitVec.toNat_ofNat]
  omega

/-- CHG goes up by at most one at an index (R68). -/
theorem xorAt_chg_le (i : Nat) (s : State) : (xorAt i s).chg.toNat ≤ s.chg.toNat + 1 := by
  rw [xorAt_chg]
  split
  · exact Nat.le_succ _
  · rw [BitVec.toNat_add, BitVec.toNat_ofNat]
    exact Nat.mod_le _ _

/-- One EXPAND step counts IDX up to 127, then starts the transform at the bottom of its range with nothing counted, or ends the
command (R87). -/
theorem inv_expandMicro (s : State) (hs : Inv s) (expanding : s.phase = .expand) : Inv (expandMicro s) := by
  have quiet := hs.busyQuiet (by simp [expanding])
  have cmd := hs.expandCmd expanding
  have wf := hs.bufWf
  obtain ⟨below, e⟩ | ⟨xfm, e⟩ | ⟨-, e⟩ := expandMicro_cases s <;> rw [e]
  · have idx_succ := toNat_succ_of_lt s.idx 127 below (by decide)
    exact inv_of_expand _ (by simpa using expanding) (by simpa using wf) (by simpa using quiet)
      (by simpa [idx_succ] using Nat.succ_le_of_lt below) (by simpa using cmd)
  · exact inv_of_xor _ rfl (by simpa [enterXor] using wf) (by simpa [enterXor] using quiet)
      ⟨Nat.le_refl _, Nat.le_max_left _ _⟩ (by simpa [enterXor] using xfm) (Nat.le_refl _)
  · exact inv_of_ready _ rfl (by simpa [complete] using quiet.2) (by simpa [complete] using wf)

/-- One XOR step handles an index below LEN, with CHG behind IDX, or ends the command (R88). -/
theorem inv_xorMicro (s : State) (hs : Inv s) (xoring : s.phase = .xor) (from_skip : 0x800 ≤ s.idx.toNat) :
    Inv (xorMicro s) := by
  have quiet := hs.busyQuiet (by simp [xoring])
  obtain ⟨xfm, (count : s.chg.toNat + 0x800 ≤ s.idx.toNat)⟩ := hs.xorCmd xoring
  obtain below | at_end := Nat.lt_or_ge s.idx.toNat s.len.toNat
  · rw [xorMicro_of_lt s below]
    have idx_succ := toNat_succ_of_lt s.idx _ below s.len.isLt
    have wf := xorAt_bufWf s.idx.toNat s s.idx.isLt hs.bufWf
    have chg_step := xorAt_chg_le s.idx.toNat s
    refine inv_of_xor _ (by simpa using xoring) wf (by simpa using quiet) ?_ (by simpa using xfm) ?_
    · simp only [State.setIdx_idx, State.setIdx_len, xorAt_len, idx_succ]
      omega
    · simp only [State.setIdx_idx, State.setIdx_chg, idx_succ]
      omega
  · rw [xorMicro_of_le s at_end]
    exact inv_of_ready _ rfl quiet.2 hs.bufWf

theorem inv_blockStep (s t : State) (hs : Inv s) (h : blockStep s = .next t) : Inv t := by
  obtain ⟨-, e⟩ | ⟨expanding, -, e⟩ | ⟨xoring, from_skip, -, e⟩ | ⟨-, e⟩ := blockStep_cases s <;>
    rw [e] at h <;> cases h
  · exact hs
  · exact inv_expandMicro s hs expanding
  · exact inv_xorMicro s hs xoring from_skip

/-- Settles O53: the invariant is kept by the block's own step, by every command and by every access of the host; reset
establishes it where BUF is canonical. -/
theorem stepKeepsInvariant : Obligations.StepKeepsInvariant := by
  intro s t hs h
  obtain ⟨ts, hb, -⟩ | ⟨w, rest, -, hc⟩ | ⟨n, rest, v, -, rfl⟩ | ⟨n, v, rest, -, hw⟩ | ⟨a, rest, v, -, rfl⟩ |
    ⟨a, v, rest, -, hp⟩ | ⟨rest, -, -, rfl⟩ | ⟨rest, -, rfl⟩ := step_next s t h
  · exact inv_blockStep _ t (hs.withHost ts s.seen) hb
  · exact inv_hostCommand w _ t (hs.withHost rest s.seen) hc
  · exact hs.withHost rest _
  · exact inv_hostRegWrite n v _ t (hs.withHost rest s.seen) hw
  · exact hs.withHost rest _
  · obtain ⟨idle, inside, rfl⟩ := hostPoke_next a v _ t hp
    exact inv_of_idle _ idle (Memory.write_wf _ a v hs.bufWf inside) hs.errCode fun fault => (hs.errQuiet fault).2
  · exact hs.withHost rest s.seen
  · exact inv_of_ready _ rfl rfl hs.bufWf

end Sys2Proof.Machine

/-! The host's accesses under the tables of R17 and R25 (10_state.md section 7): a turn that is permitted answers a next state,
any other is refused, so no fault comes from the host. -/

namespace Sys2Proof.Machine

/-! A busy block. -/

@[simp] theorem regOf_eq_status_iff (n : RegNum) : regOf n = .status ↔ n = 0x01#8 := by
  refine ⟨fun reg => ?_, fun number => by rw [number]; rfl⟩
  obtain ⟨-, e⟩ | ⟨number, -⟩ | ⟨-, e⟩ | ⟨-, e⟩ | ⟨-, -, e⟩ | ⟨-, e⟩ := regOf_cases n
  case inr.inl => exact number
  all_goals simp [e] at reg

/-- While the block is busy every access that is not permitted is refused for that reason, whatever else is wrong with it
(R28). -/
theorem takeTurn_busy (t : Turn) (s : State) (not_idle : s.phase ≠ .idle) (unpermitted : permitted t s = false) :
    takeTurn exec t s = .refused .accessWhileBusy := by
  have busy : busy s = true := (busy_eq_true_iff s).2 not_idle
  cases t with
  | block => simp [permitted] at unpermitted
  | command w =>
    obtain ⟨act, -, e⟩ := hostCommand_eq_present w s
    simp [takeTurn, e, present, busy]
  | regRead n =>
    have not_status : n ≠ 0x01#8 := by
      rintro rfl
      simp [permitted] at unpermitted
    simp [takeTurn, hostRegRead, readReg, not_status, busy]
  | regWrite n v => simp [takeTurn, hostRegWrite, busy]
  | peek a => simp [takeTurn, hostPeek, busy]
  | poke a v => simp [takeTurn, hostPoke, busy]
  | wait => simp [permitted] at unpermitted
  | reset => simp [permitted] at unpermitted

/-- While the block is busy the only permitted turns that are not the block's are the read of STATUS and reset (R28, R111). -/
theorem permitted_busy (t : Turn) (s : State) (not_idle : s.phase ≠ .idle) (ok : permitted t s = true) :
    t = .block ∨ t = .wait ∨ t = .reset ∨ t = .regRead 0x01#8 := by
  cases t <;> simp_all [permitted]

/-! An idle block. -/

/-- A read of STATUS has a value whatever the phase (R28). -/
theorem readReg_status (s : State) : readReg 0x01#8 s = .ok (statusWord s).toNat := by
  simp [readReg]

/-- A register number from 0x04 on is none of the four named registers (R17). -/
theorem ne_named_of_le (n : RegNum) (h : 4 ≤ n.toNat) : n ≠ 0x00#8 ∧ n ≠ 0x01#8 ∧ n ≠ 0x02#8 ∧ n ≠ 0x03#8 := by
  refine ⟨?_, ?_, ?_, ?_⟩ <;> rintro rfl <;> simp at h

/-- The register numbers 0x04 to 0x7F name no register (R17). -/
theorem regOf_reserved (n : RegNum) (low : 0x04 ≤ n.toNat) (high : n.toNat ≤ 0x7F) : regOf n = .reserved := by
  have := ne_named_of_le n low
  simp [regOf, this, show n.toNat < 0x80 by omega]

/-- The register numbers from 0x80 on name the key registers (R17). -/
theorem regOf_key_of_le (n : RegNum) (low : 0x80 ≤ n.toNat) : regOf n = .key (n.toNat - 0x80) := by
  have := ne_named_of_le n (by omega)
  simp [regOf, this, show ¬ n.toNat < 0x80 by omega]

/-- In an idle block a read of STATUS, LEN, CHG or a key register has a value, and no other read (R17, R28). -/
theorem hostRegRead_idle (n : RegNum) (s : State) (idle : s.phase = .idle) :
    (permitted (.regRead n) s = true ∧ ∃ u, hostRegRead n s = .next u) ∨
    (permitted (.regRead n) s = false ∧ ∃ r, hostRegRead n s = .refused r) := by
  obtain ⟨rfl, reg⟩ | ⟨rfl, reg⟩ | ⟨rfl, reg⟩ | ⟨rfl, reg⟩ | ⟨low, high, reg⟩ | ⟨low, reg⟩ := regOf_cases n
  · exact .inr (by simp [permitted, hostRegRead, readReg, reg, busy, idle])
  · exact .inl (by simp [permitted, hostRegRead, readReg])
  · exact .inl (by simp [permitted, hostRegRead, readReg, reg, busy, idle])
  · exact .inl (by simp [permitted, hostRegRead, readReg, reg, busy, idle])
  · have := ne_named_of_le n low
    exact .inr (by simp [permitted, hostRegRead, readReg, reg, busy, idle, this, Nat.lt_succ_of_le high])
  · exact .inl (by simp [permitted, hostRegRead, readReg, reg, busy, idle, low])

theorem fits_eq_false_of_le (r : RegName) (v : Nat) (wide : 2 ^ regWidth r ≤ v) : fits r v = false := by
  simpa [fits] using wide

/-- In an idle block a write of CMD, LEN or a key register has a meaning where the value fits, and no other write (R17, R28). -/
theorem hostRegWrite_idle (n : RegNum) (v : Nat) (s : State) (idle : s.phase = .idle) :
    (permitted (.regWrite n v) s = true ∧ ∃ u, hostRegWrite n v s = .next u) ∨
    (permitted (.regWrite n v) s = false ∧ ∃ r, hostRegWrite n v s = .refused r) := by
  obtain ⟨rfl, reg⟩ | ⟨rfl, reg⟩ | ⟨rfl, reg⟩ | ⟨rfl, reg⟩ | ⟨low, high, reg⟩ | ⟨low, reg⟩ := regOf_cases n
  · obtain in_range | wide := Nat.lt_or_ge v 256
    · exact .inl (by simp [permitted, hostRegWrite, reg, (fits_iff .cmd v).2 in_range, busy, idle, in_range])
    · exact .inr (by simp [permitted, hostRegWrite, reg, fits_eq_false_of_le .cmd v wide, busy, idle, wide])
  · exact .inr (by simp [permitted, hostRegWrite, reg, busy, idle])
  · obtain in_range | wide := Nat.lt_or_ge v 4294967296
    · exact .inl (by simp [permitted, hostRegWrite, reg, (fits_iff .len v).2 in_range, busy, idle, in_range])
    · exact .inr (by simp [permitted, hostRegWrite, reg, fits_eq_false_of_le .len v wide, busy, idle, wide])
  · exact .inr (by simp [permitted, hostRegWrite, reg, busy, idle])
  · have := ne_named_of_le n low
    exact .inr (by simp [permitted, hostRegWrite, reg, busy, idle, this, Nat.not_le_of_lt (Nat.lt_succ_of_le high)])
  · have := ne_named_of_le n (by omega)
    obtain in_range | wide := Nat.lt_or_ge v 256
    · exact .inl (by simp [permitted, hostRegWrite, reg, (fits_iff (.key _) v).2 in_range, busy, idle, low, in_range])
    · exact .inr (by simp [permitted, hostRegWrite, reg, fits_eq_false_of_le (.key _) v wide, busy, idle, this, wide])

theorem hostPeek_outside (s : State) (idle : s.phase = .idle) (a : Nat) (outside : 2 ^ 32 ≤ a) :
    hostPeek a s = .refused .bufOffsetOutsideSpace := by
  have not_busy : busy s = false := (busy_eq_false_iff s).2 idle
  rw [hostPeek, not_busy, if_neg Bool.false_ne_true, if_neg (Nat.not_lt_of_le outside)]

theorem hostPoke_outside (s : State) (idle : s.phase = .idle) (a : Nat) (v : Byte) (outside : 2 ^ 32 ≤ a) :
    hostPoke a v s = .refused .bufOffsetOutsideSpace := by
  have not_busy : busy s = false := (busy_eq_false_iff s).2 idle
  rw [hostPoke, not_busy, if_neg Bool.false_ne_true, if_neg (Nat.not_lt_of_le outside)]

/-- In an idle block the host's turn answers as the tables say: a next state where permitted, a refusal elsewhere. -/
theorem takeTurn_idle (t : Turn) (s : State) (idle : s.phase = .idle) :
    (permitted t s = true ∧ ∃ u, takeTurn exec t s = .next u) ∨
    (permitted t s = false ∧ ∃ r, takeTurn exec t s = .refused r) := by
  have not_busy : busy s = false := (busy_eq_false_iff s).2 idle
  cases t with
  | block => exact .inl ⟨rfl, _, blockStep_idle s idle⟩
  | command w =>
    obtain ⟨act, -, e⟩ := hostCommand_eq_present w s
    obtain ⟨is_busy, -⟩ | ⟨-, -, next⟩ | ⟨-, -, next⟩ := present_cases act s
    · simp [not_busy] at is_busy
    · exact .inl ⟨decide_eq_true idle, _, e.trans next⟩
    · exact .inl ⟨decide_eq_true idle, _, e.trans next⟩
  | regRead n => exact hostRegRead_idle n s idle
  | regWrite n v => exact hostRegWrite_idle n v s idle
  | peek a =>
    obtain inside | outside := Nat.lt_or_ge a (2 ^ 32)
    · exact .inl ⟨decide_eq_true ⟨idle, inside⟩, _, hostPeek_idle s idle a inside⟩
    · exact .inr ⟨decide_eq_false fun h => Nat.not_lt_of_le outside h.2, _, hostPeek_outside s idle a outside⟩
  | poke a v =>
    obtain inside | outside := Nat.lt_or_ge a (2 ^ 32)
    · exact .inl ⟨decide_eq_true ⟨idle, inside⟩, _, hostPoke_idle s idle a v inside⟩
    · exact .inr ⟨decide_eq_false fun h => Nat.not_lt_of_le outside h.2, _, hostPoke_outside s idle a v outside⟩
  | wait => exact .inl ⟨rfl, s, by simp [takeTurn, hostWait, not_busy]⟩
  | reset => exact .inl ⟨rfl, _, rfl⟩

/-- A read of STATUS records its value, whatever the phase (R92). -/
theorem step_of_status_read (s : State) (rest : List Turn) (next : s.script = .regRead 0x01#8 :: rest) :
    step s = .next ((s.setScript rest).pushSeen (statusWord s).toNat) :=
  step_of_reg_read s _ _ rest next (readReg_status s)

/-- Settles O55: in an idle block every turn answers as the tables say; in a busy one the read of STATUS and reset have a next
state, and every other access of the host is refused. -/
theorem hostAccessHasMeaningExactlyWhenPermitted : Obligations.HostAccessHasMeaningExactlyWhenPermitted := by
  intro s t rest next not_block not_wait
  have same : permitted t (s.setScript rest) = permitted t s := by cases t <;> rfl
  by_cases idle : s.phase = .idle
  · rw [step_cons s t rest next, ← same]
    obtain ⟨ok, meaning⟩ | ⟨unpermitted, refusal⟩ := takeTurn_idle t (s.setScript rest) idle
    · exact ⟨fun _ => meaning, fun h => by simp [ok] at h⟩
    · exact ⟨fun h => by simp [unpermitted] at h, fun _ => refusal⟩
  · refine ⟨fun ok => ?_, fun unpermitted => ?_⟩
    · obtain rfl | rfl | rfl | rfl := permitted_busy t s idle ok
      · exact absurd rfl not_block
      · exact absurd rfl not_wait
      · exact ⟨_, step_of_reset s rest next⟩
      · exact ⟨_, step_of_status_read s rest next⟩
    · rw [step_cons s t rest next]
      exact ⟨_, takeTurn_busy t (s.setScript rest) idle (same.trans unpermitted)⟩

/-! The single accesses. -/

/-- Settles O41: the read records the value of STATUS. -/
theorem statusReadAnyTime : Obligations.StatusReadAnyTime :=
  step_of_status_read

/-- Settles O40: each access is that of the register port in an idle block. -/
theorem permittedRegisterAccess : Obligations.PermittedRegisterAccess := by
  intro s rest idle
  have idle' : (s.setScript rest).phase = .idle := idle
  have key_index (n : Fin 128) : n.val % 128 = n.val := Nat.mod_eq_of_lt n.isLt
  refine ⟨fun next => ?_, fun next => ?_, fun n next => ?_, fun v next => ?_, fun n v next => ?_⟩
  · exact step_of_reg_read s _ _ rest next (by simp [readReg, regOf, busy, idle])
  · exact step_of_reg_read s _ _ rest next (by simp [readReg, regOf, busy, idle])
  · rw [step_of_reg_read s _ _ rest next (readReg_key s idle n n.isLt)]
    simp [State.keyAt, key_index, State.pushSeen, State.setScript]
  · rw [step_cons s _ rest next]
    exact hostRegWrite_len _ idle' v
  · rw [step_cons s _ rest next, takeTurn, hostRegWrite_key _ idle' n n.isLt v]
    simp [State.setKey, key_index, State.setScript]

/-- Settles O42: in a busy block by the one reason of R28, in an idle one by the register's name, its width or the size of
BUF. -/
theorem unpermittedAccessRefused : Obligations.UnpermittedAccessRefused := by
  intro s rest
  refine ⟨fun not_idle => ?_, fun idle => ?_⟩
  · have refused (t : Turn) (next : s.script = t :: rest) (unpermitted : permitted t (s.setScript rest) = false) :
        step s = .refused .accessWhileBusy := by
      rw [step_cons s t rest next]
      exact takeTurn_busy t (s.setScript rest) not_idle unpermitted
    refine ⟨fun n not_status next => ?_, fun n v next => ?_, fun w next => ?_, fun a next => ?_, fun a v next => ?_⟩
    all_goals exact refused _ next (by simp [permitted, *])
  · have idle' : (s.setScript rest).phase = .idle := idle
    refine ⟨fun next => ?_, fun v next => ?_, fun v next => ?_, fun n low high next => ?_, fun n v low high next => ?_,
      fun v wide next => ?_, fun v wide next => ?_, fun n v low wide next => ?_, fun a outside next => ?_,
      fun a v outside next => ?_⟩
    all_goals rw [step_cons s _ rest next, takeTurn]
    · simp [hostRegRead, readReg, regOf, busy, idle]
    · simp [hostRegWrite, regOf, busy, idle]
    · simp [hostRegWrite, regOf, busy, idle]
    · simp [hostRegRead, readReg, regOf_reserved n low high, busy, idle]
    · simp [hostRegWrite, regOf_reserved n low high, busy, idle]
    · simp [hostRegWrite, regOf, fits_eq_false_of_le .cmd v wide, busy, idle]
    · simp [hostRegWrite, regOf, fits_eq_false_of_le .len v wide, busy, idle]
    · simp [hostRegWrite, regOf_key_of_le n low, fits_eq_false_of_le (.key _) v wide, busy, idle]
    · exact hostPeek_outside _ idle' a outside
    · exact hostPoke_outside _ idle' a v outside

/-- Settles O43: the laws of a write to BUF, met by the block and by the host's port. -/
theorem bufReadsLastWrite : Obligations.BufReadsLastWrite := by
  refine ⟨fun s a x v => ?_, fun s rest a v idle inside next => ?_, fun s rest a idle inside next => ?_,
    fun s rest a v idle outside next => ?_⟩
  · simp +contextual [State.memWrite_bufByte]
  · have stored (x : Nat) := (s.setScript rest).setBuf_write_bufByte a x v
    refine ⟨(s.setScript rest).setBuf (s.buf.write a v), ?_, ?_, fun x other => ?_, rfl⟩
    · rw [step_cons s _ rest next]
      exact hostPoke_idle (s.setScript rest) idle a v inside
    · exact (stored a).trans (if_pos rfl)
    · exact (stored x).trans (if_neg other)
  · rw [step_cons s _ rest next]
    exact hostPeek_idle (s.setScript rest) idle a inside
  · obtain next | next := next <;> rw [step_cons s _ rest next]
    · exact hostPeek_outside (s.setScript rest) idle a outside
    · exact hostPoke_outside (s.setScript rest) idle a v outside

end Sys2Proof.Machine

/-! What the invariant says at once: STATUS has one of five values (10_state.md section 4), and no step faults (log 8). -/

namespace Sys2Proof.Machine

/-- Settles O52: an idle block with no fault and nothing written to BUF. -/
theorem invariantHoldsAtReset : Obligations.InvariantHoldsAtReset :=
  inv_of_ready _ rfl rfl reset_buf_wf

/-- Settles O39: DONE, BUSY and a fault exclude each other, and a fault is code 1 or 2. -/
theorem statusLegalValues : Obligations.StatusLegalValues := by
  intro s hs
  by_cases ok : s.err = 0#4
  · by_cases idle : s.phase = .idle
    · cases done : s.done <;> simp [statusWord, busy, ok, idle, done]
    · obtain ⟨not_done, -⟩ := hs.busyQuiet idle
      have is_busy : busy s = true := (busy_eq_true_iff s).2 idle
      simp [statusWord, is_busy, ok, not_done]
  · obtain ⟨idle, not_done⟩ := hs.errQuiet ok
    have code : s.err = 1#4 ∨ s.err = 2#4 := by
      have := hs.errCode
      bv_omega
    obtain code | code := code <;> simp [statusWord, busy, idle, not_done, code]

/-- Where IDX is in its range the block's step answers a next state (R87, R88). -/
theorem blockStep_of_idxInRange (s : State) (range : idxInRange s = true) : ∃ t, blockStep s = .next t := by
  obtain ⟨-, e⟩ | ⟨-, -, e⟩ | ⟨-, -, -, e⟩ | ⟨out, -⟩ := blockStep_cases s
  · exact ⟨_, e⟩
  · exact ⟨_, e⟩
  · exact ⟨_, e⟩
  · simp [range] at out

/-- Settles O54: the host's turns answer a next state or a refusal, and the block's own step, by its turn, by a WAIT or with no
turn left, finds IDX in its range. -/
theorem sequencerStaysInRange : Obligations.SequencerStaysInRange := by
  intro s hs
  have block_ok (ts : List Turn) : blockStep (s.setScript ts) ≠ .fault .sequencerOutOfRange := by
    obtain ⟨u, e⟩ := blockStep_of_idxInRange (s.setScript ts) hs.idxRange
    simp [e]
  cases next : s.script with
  | nil =>
    rw [step_nil s next]
    exact block_ok s.script
  | cons t rest =>
    by_cases block : t = .block
    · rw [step_cons s t rest next, block]
      exact block_ok rest
    by_cases wait : t = .wait
    · rw [step_cons s t rest next, wait, takeTurn, hostWait]
      split
      · exact block_ok _
      · simp
    obtain ⟨permitted_next, unpermitted_refused⟩ := hostAccessHasMeaningExactlyWhenPermitted s t rest next block wait
    cases ok : permitted t s
    · obtain ⟨r, e⟩ := unpermitted_refused ok
      simp [e]
    · obtain ⟨u, e⟩ := permitted_next ok
      simp [e]

/-- A byte put together as STATUS is, read back field by field (R19). -/
theorem status_layout (err : BitVec 4) (done busy : Bool) :
    let w : Byte := err ++ 0#2 ++ BitVec.ofBool done ++ BitVec.ofBool busy
    w.extractLsb 7 4 = err ∧ w.extractLsb 3 2 = 0#2 ∧ w.getLsbD 1 = done ∧ w.getLsbD 0 = busy := by
  revert err done busy
  decide

/-- Settles O38: STATUS is laid out so, with BUSY computed from PHASE. -/
theorem statusFields : Obligations.StatusFields := by
  intro s
  have busy_eq : busy s = decide (s.phase ≠ .idle) := by cases h : s.phase <;> simp [busy, h]
  rw [← busy_eq]
  exact status_layout s.err s.done (busy s)

end Sys2Proof.Machine

/-! The commands with the latching of CMDR and DONE moved behind the work: neither phase reads those two (R91). -/

namespace Sys2Proof.Machine

theorem expandKey_latched (s : State) (b : Bool) (m : BitVec 2) :
    expandKey ((s.setDone b).setCmdr m) = ((expandKey s).setDone b).setCmdr m := by
  have loop : expandLoop 128 0 ((s.setDone b).setCmdr m) = _ :=
    expandLoop_control 128 0 s s.len s.chg s.phase s.idx m b s.err s.script s.seen
  rw [expandKey, loop, expandKey]
  simp [State.setIdx, State.setDone, State.setCmdr]

theorem transformImage_latched (s : State) (b : Bool) (m : BitVec 2) :
    transformImage ((s.setDone b).setCmdr m) = ((transformImage s).setDone b).setCmdr m := by
  have loop (c : Nat) : xorLoop c 0x800 (((s.setDone b).setCmdr m).setChg 0#32) = _ :=
    xorLoop_control c 0x800 (s.setChg 0#32) s.phase s.idx m b s.err s.script s.seen
  rw [transformImage, loop, transformImage]
  simp [State.setIdx, State.setDone, State.setCmdr]

/-- DONE set behind the work hides that it was cleared before it. -/
theorem State.setDone_setCmdr_setDone (b c : Bool) (m : BitVec 2) (s : State) :
    ((s.setDone b).setCmdr m).setDone c = (s.setCmdr m).setDone c := rfl

/-- In a ready block with a long enough image KEXP expands the key, latches its command and sets DONE (R57). -/
theorem exec_kexp_eq (s : State) (ready : Ready s) (long : 0x410 ≤ s.len.toNat) :
    exec .kexp s = .next (((expandKey s).setCmdr 0b01#2).setDone true) := by
  rw [exec_kexp_of_long s ready long, expandKey_latched, State.setDone_setCmdr_setDone]

/-- In a ready block XFRM transforms the image, latches its command and sets DONE, for every LEN (R66, R69). -/
theorem exec_xfrm_eq (s : State) (ready : Ready s) :
    exec .xfrm s = .next (((transformImage s).setCmdr 0b10#2).setDone true) := by
  rw [exec_xfrm_of_ready s ready, transformImage_latched, State.setDone_setCmdr_setDone]

/-- In a ready block with a long enough image RUN expands the key, transforms the image with it, latches its command and sets
DONE (R79). -/
theorem exec_run_eq (s : State) (ready : Ready s) (long : 0x410 ≤ s.len.toNat) :
    exec .run s = .next (((transformImage (expandKey s)).setCmdr 0b11#2).setDone true) := by
  rw [exec_run_of_long s ready long, expandKey_latched, transformImage_latched, State.setDone_setCmdr_setDone]

end Sys2Proof.Machine

/-! KEXP as a whole (40_key_expander.md sections 3 and 4): its frame, the closed form of the key, its accesses. -/

namespace Sys2Proof.Machine

/-! What the expansion leaves alone, beside the fields above: it writes K, IDX and the event history (R57, R91). -/

@[simp] theorem expandKey_chg (s : State) : (expandKey s).chg = s.chg := by
  simp [expandKey]
@[simp] theorem expandKey_idx (s : State) : (expandKey s).idx = 127#32 := by
  simp [expandKey]
@[simp] theorem expandKey_cmdr (s : State) : (expandKey s).cmdr = s.cmdr := by
  simp [expandKey]
@[simp] theorem expandKey_done (s : State) : (expandKey s).done = s.done := by
  simp [expandKey]
@[simp] theorem expandKey_script (s : State) : (expandKey s).script = s.script := by
  simp [expandKey]
@[simp] theorem expandKey_seen (s : State) : (expandKey s).seen = s.seen := by
  simp [expandKey]
@[simp] theorem expandKey_seedOf (s : State) : seedOf (expandKey s) = seedOf s := by
  simp [seedOf]

/-- Settles O13: the command is the expansion between latching it and setting DONE, and the expansion writes K, IDX and the
history only. -/
theorem kexpExpandsSeedIntoKey : Obligations.KexpExpandsSeedIntoKey := by
  intro s ⟨idle, ok⟩ long
  refine ⟨_, exec_kexp_eq s ⟨idle, ok⟩ long, ?_⟩
  simp [expandKey_key, idle, ok]

/-- Byte `o` of segment `g` is the seed byte `o` rotated `g` times (R56). -/
theorem expandByte_eq_iterate (seed : Vector Byte 16) (g o : Nat) (ho : o < 16) :
    expandByte seed g o = if o ≤ 7 then rol8^[g] seed[o] else ror8^[g] seed[o] := by
  have half_iff : o < Config.half ↔ o ≤ 7 := Nat.lt_succ_iff
  induction g with
  | zero => simp [expandByte, Nat.mod_eq_of_lt ho]
  | succ g ih =>
    simp only [expandByte, ih, half_iff, Function.iterate_succ_apply']
    split <;> rfl

/-- Settles O15: K holds the expanded key, of which register `16 * g + o` is byte `o` of segment `g`. -/
theorem kexpClosedForm : Obligations.KexpClosedForm := by
  intro s ready long
  obtain ⟨t, completes, key_eq⟩ := exec_kexp_key s ready long
  refine ⟨t, completes, fun g o hg ho => ?_⟩
  have number : (16 * g + o) % 128 = 16 * g + o := by omega
  have segment : (16 * g + o) / 16 = g := by omega
  have offset : (16 * g + o) % 16 = o := by omega
  simp [State.keyAt, key_eq, expand, number, segment, offset, expandByte_eq_iterate _ g o (by omega),
    seedOf_getElem s o (by omega)]

/-- The accesses of the expansion at index `n`, oldest first: the seed read, where `n` is one of the seed's, then the register
write (R57, R62). -/
def expandAccesses (s : State) (n : Nat) : List Access :=
  (if n < 16 then [.memRead (0x400 + n) (s.bufByte (0x400 + n))] else []) ++
    [.keyWrite n (expandByte (seedOf s) (n / 16) (n % 16))]

theorem kexpAccesses_eq_flatMap (s : State) : kexpAccesses s = (List.range 128).flatMap (expandAccesses s) := rfl

/-- The expansion at one index records the value it leaves in its register. -/
theorem expandAt_trace (n : Nat) (s : State) :
    (expandAt n s).trace =
      .keyWrite n ((expandAt n s).keyAt n) ::
        (if n < 16 then [.memRead (0x400 + n) (s.bufByte (0x400 + n))] else []) ++ s.trace := by
  obtain ⟨v, e⟩ := expandAt_eq_writeKey n s
  rw [e, State.writeKey_keyAt_same, State.writeKey_trace]
  split <;> simp

/-- The history of the first `c` indices of the expansion (R37, R62). -/
theorem expandLoop_trace (c : Nat) (hc : c ≤ 128) (s : State) :
    (expandLoop c 0 s).trace = ((List.range c).flatMap (expandAccesses s)).reverse ++ s.trace := by
  induction c with
  | zero => simp [expandLoop]
  | succ c ih =>
    have value : (expandAt c (expandLoop c 0 s)).keyAt c = expandByte (seedOf s) (c / 16) (c % 16) := by
      have := expandLoop_keyAt (c + 1) hc s c (Nat.lt_succ_self c)
      rwa [expandLoop_succ_last, Nat.zero_add] at this
    rw [expandLoop_succ_last, Nat.zero_add, expandAt_trace, value, ih (by omega), List.range_succ]
    by_cases h : c < 16 <;> simp [expandAccesses, h]

/-- Settles O16: the history of all 128 indices. -/
theorem kexpAccessHistory : Obligations.KexpAccessHistory := by
  intro s ready long
  refine ⟨_, exec_kexp_eq s ready long, ?_⟩
  simp [expandKey, expandLoop_trace 128 (Nat.le_refl _), kexpAccesses_eq_flatMap]

end Sys2Proof.Machine

/-! XFRM and RUN as whole commands (41_selective_xor.md, 42_pipeline.md section 1): the image they leave, and that a second pass
restores it. -/

namespace Sys2Proof.Machine

/-! One byte (R64). -/

theorem stores_xor (b k : Byte) : stores (b ^^^ k) k = stores b k := by
  simp [stores, Bool.and_comm]

/-- A second transform under the same key byte undoes the first (41_selective_xor.md section 4). -/
theorem xf_xf (b k : Byte) : xf (xf b k) k = b := by
  rw [xf_eq_ite_stores b k]
  by_cases h : stores b k = true
  · rw [if_pos h, xf_eq_ite_stores, stores_xor, if_pos h, BitVec.xor_assoc, BitVec.xor_self, BitVec.xor_zero]
  · rw [if_neg h, xf_eq_ite_stores, if_neg h]

/-- Settles O17: two lines keep the byte, the third writes the XOR, and the pair of transforms is the identity. -/
theorem byteTransformLaws : Obligations.ByteTransformLaws := by
  intro b k
  simp only [← isSentinel_iff]
  refine ⟨xf_of_isSentinel b k, fun result_sentinel => ?_, fun not_sentinel not_result => ?_, xf_xf b k, ?_⟩
  · simp [xf, result_sentinel]
  · rw [xf, if_neg not_sentinel, if_neg not_result]
  · rw [isSentinel_xf]

/-! What the transform leaves alone: it writes BUF, CHG, IDX and the event history (R66, R91). -/

@[simp] theorem transformImage_len (s : State) : (transformImage s).len = s.len := by
  simp [transformImage]
@[simp] theorem transformImage_cmdr (s : State) : (transformImage s).cmdr = s.cmdr := by
  simp [transformImage]
@[simp] theorem transformImage_done (s : State) : (transformImage s).done = s.done := by
  simp [transformImage]
@[simp] theorem transformImage_script (s : State) : (transformImage s).script = s.script := by
  simp [transformImage]
@[simp] theorem transformImage_seen (s : State) : (transformImage s).seen = s.seen := by
  simp [transformImage]
@[simp] theorem transformImage_keyAt (s : State) (n : Nat) : (transformImage s).keyAt n = s.keyAt n := by
  simp [State.keyAt]

theorem transformImage_idx_toNat (s : State) : (transformImage s).idx.toNat = max 0x800 s.len.toNat := by
  have := s.len.isLt
  simp [transformImage]
  omega

theorem transformImage_bufByte_inside (s : State) (i : Nat) (from_skip : 0x800 ≤ i) (below : i < s.len.toNat) :
    (transformImage s).bufByte i = xf (s.bufByte i) (s.keyAt i) := by
  rw [transformImage_bufByte, if_pos ⟨from_skip, below⟩]

theorem transformImage_bufByte_outside (s : State) (a : Nat) (outside : a < 0x800 ∨ s.len.toNat ≤ a) :
    (transformImage s).bufByte a = s.bufByte a := by
  rw [transformImage_bufByte, if_neg (by omega)]

/-- Settles O19: BUF is that of the transform, and the rest of the command latches CMDR and sets DONE. -/
theorem xfrmTransformsImage : Obligations.XfrmTransformsImage := by
  intro s ⟨idle, ok⟩
  refine ⟨_, exec_xfrm_eq s ⟨idle, ok⟩, fun i from_skip below => ?_, fun a outside => ?_, ?_⟩
  · simp [transformImage_bufByte_inside s i from_skip below, State.keyAt]
  · simp [transformImage_bufByte_outside s a outside]
  · simp [transformImage_idx_toNat, idle, ok]

/-- Settles O21: the history is that of the transform. -/
theorem xfrmAccessHistory : Obligations.XfrmAccessHistory := by
  intro s ready
  exact ⟨_, exec_xfrm_eq s ready, by simp [transformImage_trace]⟩

/-- Settles O23: at an index of the region the byte left is `xf` of the byte found and its key byte. -/
theorem outputByteDependsOnOwnByteAndKey : Obligations.OutputByteDependsOnOwnByteAndKey := by
  intro s₁ s₂ i ready₁ ready₂ from_skip below₁ below₂ same_byte same_key
  refine ⟨_, _, exec_xfrm_eq s₁ ready₁, exec_xfrm_eq s₂ ready₂, ?_⟩
  have out₁ := transformImage_bufByte_inside s₁ i from_skip below₁
  have out₂ := transformImage_bufByte_inside s₂ i from_skip below₂
  simp [out₁, out₂, same_byte, same_key]

/-! Uniform keys. -/

theorem keyAt_of_replicate (s : State) (k : Byte) (uniform : s.key = Vector.replicate 128 k) (n : Nat) : s.keyAt n = k := by
  simp [State.keyAt, uniform]

/-- Key byte 0x00 changes no byte. -/
theorem xf_zero (b : Byte) : xf b 0x00#8 = b := by
  simp [xf]

/-- The two sentinels are each other's complement. -/
theorem isSentinel_xor_ones (b : Byte) : isSentinel (b ^^^ 0xFF#8) = isSentinel b := by
  have to_zero : b ^^^ 0xFF#8 = 0x00#8 ↔ b = 0xFF#8 := BitVec.xor_eq_zero_iff
  have to_ones : b ^^^ 0xFF#8 = 0xFF#8 ↔ b = 0x00#8 := by simp
  rw [Bool.eq_iff_iff, isSentinel_iff, isSentinel_iff, to_zero, to_ones, or_comm]

/-- Key byte 0xFF complements a byte that is no sentinel. -/
theorem xf_ones (b : Byte) (not_sentinel : isSentinel b = false) : xf b 0xFF#8 = b ^^^ 0xFF#8 := by
  simp [xf, isSentinel_xor_ones, not_sentinel]

/-- Under an all-zero key the transform leaves every byte and counts none. -/
theorem transformImage_of_zero_key (s : State) (key_byte : ∀ n, s.keyAt n = 0x00#8) :
    (∀ a, (transformImage s).bufByte a = s.bufByte a) ∧ (transformImage s).chg = 0#32 := by
  have unchanged (a : Nat) : (transformImage s).bufByte a = s.bufByte a := by
    simp [transformImage_bufByte, key_byte, xf_zero]
  refine ⟨unchanged, BitVec.eq_of_toNat_eq ?_⟩
  simp [transformImage_chg_toNat, unchanged]

/-- Settles O24: byte by byte, `xf` under the one key byte. -/
theorem uniformKeyCases : Obligations.UniformKeyCases := by
  intro s ready
  refine ⟨fun uniform => ⟨_, exec_xfrm_eq s ready, ?_⟩, fun uniform =>
    ⟨_, exec_xfrm_eq s ready, fun i from_skip below not_sentinel => ?_⟩⟩
  · simpa using transformImage_of_zero_key s (keyAt_of_replicate s 0x00#8 uniform)
  · have complement : (transformImage s).bufByte i = s.bufByte i ^^^ 0xFF#8 := by
      rw [transformImage_bufByte_inside s i from_skip below, keyAt_of_replicate s 0xFF#8 uniform, xf_ones _ not_sentinel]
    simp [complement, isSentinel_xor_ones, not_sentinel]

/-! A second pass (90_conflicts.md C5). -/

/-- A transform of the image a transform left, with the same key and LEN, finds at every offset of the region the byte `xf` left
there: it restores the image and counts the same changes. -/
theorem transformImage_twice (s t : State) (same_len : t.len = s.len) (same_key : ∀ n, t.keyAt n = s.keyAt n)
    (image : ∀ a, t.bufByte a = (transformImage s).bufByte a) :
    (∀ a, (transformImage t).bufByte a = s.bufByte a) ∧ (transformImage t).chg = (transformImage s).chg := by
  have restored (a : Nat) : (transformImage t).bufByte a = s.bufByte a := by
    rw [transformImage_bufByte, same_len, same_key, image, transformImage_bufByte]
    split
    · exact xf_xf _ _
    · rfl
  refine ⟨restored, BitVec.eq_of_toNat_eq ?_⟩
  simp only [transformImage_chg_toNat, same_len, restored, image, bne_comm]

/-- Settles O25: both commands transform with the same key and LEN, the second the image the first left. -/
theorem xfrmTwiceRestoresImage : Obligations.XfrmTwiceRestoresImage := by
  intro s ⟨idle, ok⟩
  refine ⟨_, _, exec_xfrm_eq s ⟨idle, ok⟩, exec_xfrm_eq _ ⟨by simp [idle], by simp [ok]⟩, ?_⟩
  obtain ⟨restored, same_count⟩ :=
    transformImage_twice s (((transformImage s).setCmdr 0b10#2).setDone true) (by simp) (by simp) (by simp)
  simp [restored, same_count]

/-! RUN (R79). -/

/-- Settles O26: the image and the count are those of the transform of the state the expansion leaves, which has the bytes and
LEN of the first. -/
theorem runExpandsThenTransforms : Obligations.RunExpandsThenTransforms := by
  intro s ⟨idle, ok⟩ long
  refine ⟨_, exec_run_eq s ⟨idle, ok⟩ long, ?_, fun i from_skip below => ?_, fun a outside => ?_, ?_, ?_⟩
  · simp [expandKey_key]
  · have out := transformImage_bufByte_inside (expandKey s) i from_skip (by simpa using below)
    simp [out, State.keyAt, expandKey_key]
  · simp [transformImage_bufByte_outside (expandKey s) a (by simpa using outside)]
  · simp [transformImage_chg_toNat, indices]
  · simp [transformImage_idx_toNat, idle, ok]

/-- Settles O27: what KEXP latches is behind the expansion, so XFRM transforms the state RUN transforms, and each latches its own
command. -/
theorem runIsKexpThenXfrm : Obligations.RunIsKexpThenXfrm := by
  intro s ⟨idle, ok⟩ long
  refine ⟨_, _, exec_kexp_eq s ⟨idle, ok⟩ long, exec_xfrm_eq _ ⟨by simp [idle], by simp [ok]⟩, ?_⟩
  rw [exec_run_eq s ⟨idle, ok⟩ long]
  generalize expandKey s = expanded
  have latched : transformImage ((expanded.setCmdr 0b01#2).setDone true) = _ := transformImage_latched expanded true 0b01#2
  rw [latched]
  generalize transformImage expanded = transformed
  rfl

/-- The seed lies in the header, which a transform does not touch (R46). -/
@[simp] theorem transformImage_seedOf (s : State) : seedOf (transformImage s) = seedOf s :=
  seedOf_congr _ _ fun n hn => transformImage_bufByte_outside s _ (.inl (by omega))

/-- Settles O29: the second RUN finds the seed of the first, so it transforms the image the first left with the same key. -/
theorem runTwiceRestoresImage : Obligations.RunTwiceRestoresImage := by
  intro s ⟨idle, ok⟩ long
  refine ⟨_, _, exec_run_eq s ⟨idle, ok⟩ long, exec_run_eq _ ⟨by simp [idle], by simp [ok]⟩ (by simpa using long), ?_⟩
  have same_key : (expandKey (((transformImage (expandKey s)).setCmdr 0b11#2).setDone true)).key = (expandKey s).key := by
    simp [expandKey_key]
  obtain ⟨restored, same_count⟩ :=
    transformImage_twice (expandKey s) (expandKey (((transformImage (expandKey s)).setCmdr 0b11#2).setDone true))
      (by simp) (fun n => by simp only [State.keyAt, same_key]) (by simp)
  simp [restored, same_count, same_key]

end Sys2Proof.Machine

/-! One micro-step (43_microsteps.md section 2). -/

namespace Sys2Proof.Machine

/-- The value the expansion gives register `n` (R57, R87). -/
theorem expandAt_keyAt_self (n : Nat) (s : State) :
    (expandAt n s).keyAt n =
      if n < 16 then s.bufByte (0x400 + n)
      else if n % 16 < 8 then rol8 (s.keyAt (n - 16)) else ror8 (s.keyAt (n - 16)) := by
  unfold expandAt
  split
  · simp [State.writeKey_keyAt_same]
  · split <;> simp [State.writeKey_keyAt_same]

/-! An EXPAND step's work on K is that of the expansion at IDX; moving the sequencer touches no register. -/

@[simp] theorem expandMicro_keyAt (s : State) (m : Nat) : (expandMicro s).keyAt m = (expandAt s.idx.toNat s).keyAt m := by
  obtain ⟨-, e⟩ | ⟨-, e⟩ | ⟨-, e⟩ := expandMicro_cases s <;> simp [e, enterXor, complete]
@[simp] theorem expandMicro_len (s : State) : (expandMicro s).len = s.len := by
  obtain ⟨-, e⟩ | ⟨-, e⟩ | ⟨-, e⟩ := expandMicro_cases s <;> simp [e, enterXor, complete]
@[simp] theorem expandMicro_buf (s : State) : (expandMicro s).buf = s.buf := by
  obtain ⟨-, e⟩ | ⟨-, e⟩ | ⟨-, e⟩ := expandMicro_cases s <;> simp [e, enterXor, complete]
@[simp] theorem expandMicro_cmdr (s : State) : (expandMicro s).cmdr = s.cmdr := by
  obtain ⟨-, e⟩ | ⟨-, e⟩ | ⟨-, e⟩ := expandMicro_cases s <;> simp [e, enterXor, complete]
@[simp] theorem expandMicro_seen (s : State) : (expandMicro s).seen = s.seen := by
  obtain ⟨-, e⟩ | ⟨-, e⟩ | ⟨-, e⟩ := expandMicro_cases s <;> simp [e, enterXor, complete]

/-- Settles O31: K moves as in the expansion at IDX, the sequencer by its three cases, and no case touches the rest. -/
theorem expandStepWritesKeyRegister : Obligations.ExpandStepWritesKeyRegister := by
  rintro s n expanding rfl in_range
  refine ⟨_, blockStep_expand s expanding in_range, ?_, fun m hm other => ?_, fun below => ?_, fun last xfm => ?_,
    fun last no_xfm => ?_, ?_⟩
  · rw [expandMicro_keyAt, expandAt_keyAt_self]
  · rw [expandMicro_keyAt, expandAt_keyAt_ne _ _ _ (by omega)]
  · have idx_succ := toNat_succ_of_lt s.idx 127 below (by decide)
    simp [expandMicro_of_lt s below, idx_succ, expanding]
  · simp [expandMicro_of_last_xfm s (Nat.le_of_eq last.symm) xfm, enterXor]
  · simp [expandMicro_of_last s (Nat.le_of_eq last.symm) no_xfm, complete]
  · simp

/-- Settles O32: at LEN the step only ends the command; below it BUF and CHG move as in the transform at IDX. -/
theorem xorStepHandlesOneIndex : Obligations.XorStepHandlesOneIndex := by
  rintro s i xoring rfl from_skip in_range
  rw [blockStep_xor s xoring from_skip in_range]
  refine ⟨fun at_end => ?_, fun below => ?_⟩
  · rw [xorMicro_of_le s at_end, complete_eq]
  · have idx_succ := toNat_succ_of_lt s.idx _ below s.len.isLt
    refine ⟨_, rfl, ?_⟩
    rw [xorMicro_of_lt s below]
    simp [xorAt_bufByte, xorAt_chg, idx_succ, xoring]

end Sys2Proof.Machine


/-! A WAIT (43_microsteps.md section 4): while the block is busy every poll is a step of the block. -/

namespace Sys2Proof.Machine

/-- A step of the block leaves the schedule and the values read as they are. -/
theorem blockStep_host (s t : State) (h : blockStep s = .next t) : t.script = s.script ∧ t.seen = s.seen := by
  have same : blockStep (s.withHost s.script s.seen) = .next (t.withHost s.script s.seen) :=
    blockStep_withHost s t s.script s.seen h
  have t_eq : t = t.withHost s.script s.seen := Host.Outcome.next.inj (h.symm.trans same)
  rw [t_eq]
  exact ⟨rfl, rfl⟩

/-- A run one step longer. -/
theorem runFor_succ_last (k : Nat) (s t u : State) (run : runFor k s = .next t) (last : step t = .next u) :
    runFor (k + 1) s = .next u := by
  rw [runFor_add k 1 s t run, runFor_succ 0 t u last, runFor_zero]

/-- A poll of a busy block is a step of the block, with the WAIT still next (R51, log 12). -/
theorem step_of_wait_busy (s : State) (rest : List Turn) (next : s.script = .wait :: rest) (not_idle : s.phase ≠ .idle) :
    step s = blockStep s := by
  have is_busy : busy (s.setScript rest) = true := (busy_eq_true_iff s).2 not_idle
  rw [step_cons s _ rest next, takeTurn, hostWait, if_pos is_busy]
  congr 1
  rw [State.setScript_script, ← next]
  rfl

/-- A poll of an idle block ends the WAIT. -/
theorem step_of_wait_idle (s : State) (rest : List Turn) (next : s.script = .wait :: rest) (idle : s.phase = .idle) :
    step s = .next (s.setScript rest) := by
  have not_busy : busy (s.setScript rest) = false := (busy_eq_false_iff s).2 idle
  rw [step_cons s _ rest next, takeTurn, hostWait, not_busy, if_neg Bool.false_ne_true]

/-- Under the invariant the block has no step left exactly when it is idle. -/
theorem stepsLeft_eq_zero_iff (s : State) (hs : Inv s) : stepsLeft s = 0 ↔ s.phase = .idle := by
  have range := hs.idxRange
  cases phase : s.phase with
  | idle => simp [stepsLeft, phase]
  | expand =>
    have in_range : s.idx.toNat ≤ 127 := by simpa [idxInRange, phase] using range
    simp only [stepsLeft, phase, reduceCtorEq, iff_false]
    omega
  | xor => simp [stepsLeft, phase]

/-- The first `k` polls of a WAIT are the next `k` steps of the block, as long as it has that many left. -/
theorem runFor_wait (s : State) (rest : List Turn) (hs : Inv s) (next : s.script = .wait :: rest) (k : Nat)
    (hk : k ≤ stepsLeft s) :
    ∃ t, runFor k s = .next t ∧ Inv t ∧ t.script = .wait :: rest ∧ stepsLeft t = stepsLeft s - k := by
  induction k with
  | zero => exact ⟨s, runFor_zero s, hs, next, rfl⟩
  | succ k ih =>
    obtain ⟨t, run, ht, wait_next, left⟩ := ih (by omega)
    have not_idle : t.phase ≠ .idle := by
      rw [Ne, ← stepsLeft_eq_zero_iff t ht]
      omega
    have poll := step_of_wait_busy t rest wait_next not_idle
    obtain ⟨u, block⟩ := blockStep_of_idxInRange t ht.idxRange
    have one_less := blockStep_stepsLeft t u not_idle block
    exact ⟨u, runFor_succ_last k s t u run (poll.trans block), inv_blockStep t u ht block,
      (blockStep_host t u block).1.trans wait_next, by omega⟩

/-- Settles O36: the polls take the steps the block has left; the one after them finds it idle. -/
theorem waitEnds : Obligations.WaitEnds := by
  intro s rest hs next
  refine ⟨fun k hk => ?_, ?_⟩
  · obtain ⟨t, run, -, wait_next, left⟩ := runFor_wait s rest hs next k hk
    exact ⟨t, run, wait_next, left⟩
  · obtain ⟨t, run, ht, wait_next, left⟩ := runFor_wait s rest hs next _ (Nat.le_refl _)
    have idle : t.phase = .idle := (stepsLeft_eq_zero_iff t ht).1 (by omega)
    exact ⟨_, runFor_succ_last _ s t _ run (step_of_wait_idle t rest wait_next idle), idle, rfl⟩

end Sys2Proof.Machine

/-! The micro-steps of a whole command (43_microsteps.md section 3): what each phase's steps add up to, and with the accept step
before them the state of the command. -/

namespace Sys2Proof.Machine

/-- What a command does in a ready block, said once (R57, R58, R66, R79, R83). -/
theorem exec_cases (i : Instr) (s : State) (ready : Ready s) :
    (i = .nop ∧ exec i s = .next ((s.setCmdr 0b00#2).setDone true)) ∨
    ((i = .kexp ∨ i = .run) ∧ s.len.toNat < 0x410 ∧ exec i s = .next (raiseFault insufficientLength s)) ∨
    (i = .kexp ∧ 0x410 ≤ s.len.toNat ∧ exec i s = .next (((expandKey s).setCmdr 0b01#2).setDone true)) ∨
    (i = .xfrm ∧ exec i s = .next (((transformImage s).setCmdr 0b10#2).setDone true)) ∨
    (i = .run ∧ 0x410 ≤ s.len.toNat ∧ exec i s = .next (((transformImage (expandKey s)).setCmdr 0b11#2).setDone true)) := by
  obtain short | long := Nat.lt_or_ge s.len.toNat 0x410
  · cases i with
    | nop => exact .inl ⟨rfl, exec_nop_of_ready s ready⟩
    | kexp => exact .inr (.inl ⟨.inl rfl, short, exec_expanding_of_short _ (.inl rfl) s ready short⟩)
    | xfrm => exact .inr (.inr (.inr (.inl ⟨rfl, exec_xfrm_eq s ready⟩)))
    | run => exact .inr (.inl ⟨.inr rfl, short, exec_expanding_of_short _ (.inr rfl) s ready short⟩)
  · cases i with
    | nop => exact .inl ⟨rfl, exec_nop_of_ready s ready⟩
    | kexp => exact .inr (.inr (.inl ⟨rfl, long, exec_kexp_eq s ready long⟩))
    | xfrm => exact .inr (.inr (.inr (.inl ⟨rfl, exec_xfrm_eq s ready⟩)))
    | run => exact .inr (.inr (.inr (.inr ⟨rfl, long, exec_run_eq s ready long⟩)))

/-- A command ends with the block idle and DONE or the fault INSUFFICIENT_LENGTH set, and leaves the host's fields alone. -/
theorem exec_end (i : Instr) (s t : State) (ready : Ready s) (h : exec i s = .next t) :
    t.phase = .idle ∧ (statusWord t = 0x02#8 ∨ statusWord t = 0x10#8) ∧ t.script = s.script ∧ t.seen = s.seen := by
  obtain ⟨idle, ok⟩ := ready
  obtain ⟨-, e⟩ | ⟨-, -, e⟩ | ⟨-, -, e⟩ | ⟨-, e⟩ | ⟨-, -, e⟩ := exec_cases i s ⟨idle, ok⟩ <;>
    obtain rfl := Host.Outcome.next.inj (h.symm.trans e) <;>
    simp [statusWord, busy, raiseFault, insufficientLength, idle, ok]

/-! Runs of a busy block. -/

theorem statusWord_busy (s : State) (not_idle : s.phase ≠ .idle) (not_done : s.done = false) (ok : s.err = 0#4) :
    statusWord s = 0x01#8 := by
  have is_busy : busy s = true := (busy_eq_true_iff s).2 not_idle
  simp [statusWord, is_busy, not_done, ok]

/-- `n` steps lead from `s` to `t`, and STATUS reads BUSY alone before each of them. -/
def BusyUntil (n : Nat) (s t : State) : Prop :=
  (∀ k, k < n → ∃ u, runFor k s = .next u ∧ statusWord u = 0x01#8) ∧ runFor n s = .next t

theorem busyUntil_zero (s : State) : BusyUntil 0 s s :=
  ⟨fun _ hk => absurd hk (Nat.not_lt_zero _), runFor_zero s⟩

theorem busyUntil_trans (m n : Nat) (s t u : State) (first : BusyUntil m s t) (second : BusyUntil n t u) :
    BusyUntil (m + n) s u := by
  obtain ⟨busy_first, run_first⟩ := first
  obtain ⟨busy_second, run_second⟩ := second
  refine ⟨fun k hk => ?_, (runFor_add m n s t run_first).trans run_second⟩
  obtain early | late := Nat.lt_or_ge k m
  · exact busy_first k early
  · obtain ⟨j, rfl⟩ := Nat.exists_eq_add_of_le late
    rw [runFor_add m j s t run_first]
    exact busy_second j (by omega)

/-! Phase EXPAND from its start: 128 steps, and the block is busy before the last. -/

/-- Phase EXPAND starts: `PHASE <- EXPAND; IDX <- 0` (R86 line 6). -/
def startExpand (s : State) : State := (s.setPhase .expand).setIdx 0#32

/-- The expansion does not read PHASE or IDX, and sets IDX itself. -/
theorem expandKey_startExpand (s : State) : expandKey (startExpand s) = (expandKey s).setPhase .expand := by
  have loop : expandLoop 128 0 (startExpand s) = _ :=
    expandLoop_control 128 0 s s.len s.chg .expand 0#32 s.cmdr s.done s.err s.script s.seen
  rw [expandKey, loop, expandKey]
  simp [State.setIdx, State.setPhase]

/-- After `k` of its first 127 steps phase EXPAND has done the expansion up to index `k` (R87). -/
theorem runFor_startExpand (s : State) (no_turn : s.script = []) (k : Nat) (hk : k ≤ 127) :
    runFor k (startExpand s) = .next ((expandLoop k 0 (startExpand s)).setIdx (BitVec.ofNat 32 k)) := by
  induction k with
  | zero => rfl
  | succ k ih =>
    refine runFor_succ_last k _ _ _ (ih (by omega)) ?_
    rw [step_nil _ (by simpa [startExpand] using no_turn)]
    exact blockStep_expandLoop (startExpand s) k rfl (by omega)

/-- The 128 steps of phase EXPAND are the whole expansion, with the block busy before each; then the transform starts or the
command ends (R87). -/
theorem busyUntil_startExpand (s : State) (no_turn : s.script = []) (not_done : s.done = false) (ok : s.err = 0#4) :
    BusyUntil 128 (startExpand s) (if s.cmdr.getLsbD 1 then enterXor (expandKey s) else complete (expandKey s)) := by
  refine ⟨fun k hk => ⟨_, runFor_startExpand s no_turn k (by omega), ?_⟩,
    runFor_succ_last 127 _ _ _ (runFor_startExpand s no_turn 127 (Nat.le_refl _)) ?_⟩
  · exact statusWord_busy _ (by simp [startExpand]) (by simpa [startExpand] using not_done) (by simpa [startExpand] using ok)
  · rw [step_nil _ (by simpa [startExpand] using no_turn), blockStep_expandLoop_last (startExpand s) rfl,
      expandKey_startExpand]
    generalize expandKey s = expanded
    rfl

theorem busyUntil_startExpand_complete (s : State) (no_turn : s.script = []) (not_done : s.done = false) (ok : s.err = 0#4)
    (no_xfm : s.cmdr.getLsbD 1 = false) : BusyUntil 128 (startExpand s) (complete (expandKey s)) := by
  simpa only [if_neg (ne_true_of_eq_false no_xfm)] using busyUntil_startExpand s no_turn not_done ok

theorem busyUntil_startExpand_enterXor (s : State) (no_turn : s.script = []) (not_done : s.done = false) (ok : s.err = 0#4)
    (xfm : s.cmdr.getLsbD 1 = true) : BusyUntil 128 (startExpand s) (enterXor (expandKey s)) := by
  simpa only [if_pos xfm] using busyUntil_startExpand s no_turn not_done ok

/-! Phase XOR from its start: one step for each index of the region and a closing one. -/

/-- The transform does not read PHASE or IDX, and starts with CHG = 0 itself. -/
theorem xorLoop_enterXor (s : State) (k : Nat) :
    xorLoop k 0x800 (enterXor s) = ((xorLoop k 0x800 (s.setChg 0#32)).setPhase .xor).setIdx 0x800#32 := by
  have loop : xorLoop k 0x800 (enterXor s) = _ :=
    xorLoop_control k 0x800 (s.setChg 0#32) .xor 0x800#32 s.cmdr s.done s.err s.script s.seen
  rw [loop]
  simp [State.setIdx, State.setPhase]

/-- After `k` of its steps phase XOR has done the transform up to index `0x800 + k` (R88). -/
theorem runFor_enterXor (s : State) (no_turn : s.script = []) (k : Nat) (hk : k ≤ s.len.toNat - 0x800) :
    runFor k (enterXor s) = .next ((xorLoop k 0x800 (enterXor s)).setIdx (BitVec.ofNat 32 (0x800 + k))) := by
  induction k with
  | zero => rfl
  | succ k ih =>
    refine runFor_succ_last k _ _ _ (ih (by omega)) ?_
    rw [step_nil _ (by simpa [enterXor] using no_turn)]
    exact blockStep_xorLoop (enterXor s) k rfl hk

/-- The steps of phase XOR are the whole transform, with the block busy before each, and the closing one ends the command
(R88). -/
theorem busyUntil_enterXor (s : State) (no_turn : s.script = []) (not_done : s.done = false) (ok : s.err = 0#4) :
    BusyUntil (s.len.toNat - 0x800 + 1) (enterXor s) (complete (transformImage s)) := by
  refine ⟨fun k hk => ⟨_, runFor_enterXor s no_turn k (by omega), ?_⟩,
    runFor_succ_last _ _ _ _ (runFor_enterXor s no_turn _ (Nat.le_refl _)) ?_⟩
  · exact statusWord_busy _ (by simp [enterXor]) (by simpa [enterXor] using not_done) (by simpa [enterXor] using ok)
  · rw [step_nil _ (by simpa [enterXor] using no_turn), show 0x800 + (s.len.toNat - 0x800) = max 0x800 s.len.toNat by omega]
    have same_len : (enterXor s).len = s.len := rfl
    have last := blockStep_xorLoop_last (enterXor s) rfl
    rw [same_len] at last
    rw [last, xorLoop_enterXor, transformImage]
    generalize xorLoop _ _ _ = transformed
    rfl

/-! The accept step of a defined word in a ready block (R86 lines 4 to 8). -/

theorem acceptWord_short (w : Byte) (s : State) (ok : s.err = 0#4) (defined : rsvField w = 0#6) (exp : expField w = true)
    (short : s.len.toNat < 0x410) : acceptWord w s = raiseFault insufficientLength s := by
  have too_short : tooShort s = true := (tooShort_iff s).2 short
  simp [acceptWord, ok, defined, exp, too_short]
  rfl

theorem acceptWord_expand (w : Byte) (s : State) (ok : s.err = 0#4) (defined : rsvField w = 0#6) (exp : expField w = true)
    (long : 0x410 ≤ s.len.toNat) : acceptWord w s = startExpand ((s.setDone false).setCmdr (cmdrField w)) := by
  have long_enough : tooShort s = false := by simpa using (tooShort_iff s).not.2 (by omega)
  simp [acceptWord, ok, defined, exp, long_enough, startExpand]

theorem acceptWord_xor (w : Byte) (s : State) (ok : s.err = 0#4) (defined : rsvField w = 0#6) (no_exp : expField w = false)
    (xfm : xfmField w = true) : acceptWord w s = enterXor ((s.setDone false).setCmdr (cmdrField w)) := by
  simp [acceptWord, ok, defined, no_exp, xfm]

theorem acceptWord_nop (w : Byte) (s : State) (ok : s.err = 0#4) (defined : rsvField w = 0#6) (no_exp : expField w = false)
    (no_xfm : xfmField w = false) : acceptWord w s = ((s.setDone false).setCmdr (cmdrField w)).setDone true := by
  simp [acceptWord, ok, defined, no_exp, no_xfm]

/-! From the accepted word to the end of the command. -/

/-- A command that ends in an idle block sets DONE only. -/
theorem complete_of_idle (s : State) (idle : s.phase = .idle) : complete s = s.setDone true := by
  rw [complete, ← idle]
  rfl

/-- On a short image the accept step of a command with `EXP = 1` is the whole command (R86 line 4). -/
theorem acceptWord_eq_exec_of_short (i : Instr) (hi : i = .kexp ∨ i = .run) (s : State) (ready : Ready s)
    (short : s.len.toNat < 0x410) :
    microSteps i s = 1 ∧ exec i s = .next (acceptWord (encodeWord i) s) := by
  have too_short : tooShort s = true := (tooShort_iff s).2 short
  rw [exec_expanding_of_short i hi s ready short]
  obtain rfl | rfl := hi
  · rw [acceptWord_short _ s ready.2 rfl rfl short, microSteps, if_pos too_short]
    exact ⟨rfl, rfl⟩
  · rw [acceptWord_short _ s ready.2 rfl rfl short, microSteps, if_pos too_short]
    exact ⟨rfl, rfl⟩

/-- Behind the accept step the block is busy for one step fewer than the command has, and reaches the state of the whole
command (R90, R91). -/
theorem busyUntil_acceptWord (i : Instr) (s : State) (ready : Ready s) (no_turn : s.script = []) :
    ∃ t, exec i s = .next t ∧ BusyUntil (microSteps i s - 1) (acceptWord (encodeWord i) s) t := by
  obtain ⟨idle, ok⟩ := ready
  have script_latched (m : BitVec 2) : ((s.setDone false).setCmdr m).script = [] := no_turn
  have err_latched (m : BitVec 2) : ((s.setDone false).setCmdr m).err = 0#4 := ok
  by_cases short : (i = .kexp ∨ i = .run) ∧ s.len.toNat < 0x410
  · obtain ⟨one_step, whole⟩ := acceptWord_eq_exec_of_short i short.1 s ⟨idle, ok⟩ short.2
    rw [one_step]
    exact ⟨_, whole, busyUntil_zero _⟩
  cases i with
  | nop =>
    refine ⟨_, exec_nop_of_ready s ⟨idle, ok⟩, ?_⟩
    rw [acceptWord_nop _ s ok rfl rfl rfl]
    exact busyUntil_zero _
  | kexp =>
    have long : 0x410 ≤ s.len.toNat := by simpa using short
    have not_short : ¬ tooShort s = true := (tooShort_iff s).not.2 (by omega)
    have accepted : acceptWord (encodeWord .kexp) s = startExpand ((s.setDone false).setCmdr 0b01#2) :=
      acceptWord_expand _ s ok rfl rfl long
    refine ⟨_, exec_kexp_of_long s ⟨idle, ok⟩ long, ?_⟩
    rw [accepted, ← complete_of_idle _ (by simp [idle]), microSteps, if_neg not_short, Nat.add_sub_cancel_left]
    exact busyUntil_startExpand_complete _ (script_latched _) (by simp) (err_latched _) (by simp)
  | xfrm =>
    refine ⟨_, exec_xfrm_of_ready s ⟨idle, ok⟩, ?_⟩
    rw [acceptWord_xor _ s ok rfl rfl rfl, ← complete_of_idle _ (by simp [idle]), microSteps, Nat.add_assoc,
      Nat.add_sub_cancel_left]
    exact busyUntil_enterXor _ (script_latched _) (by simp) (err_latched _)
  | run =>
    have long : 0x410 ≤ s.len.toNat := by simpa using short
    have not_short : ¬ tooShort s = true := (tooShort_iff s).not.2 (by omega)
    have accepted : acceptWord (encodeWord .run) s = startExpand ((s.setDone false).setCmdr 0b11#2) :=
      acceptWord_expand _ s ok rfl rfl long
    refine ⟨_, exec_run_of_long s ⟨idle, ok⟩ long, ?_⟩
    rw [accepted, ← complete_of_idle _ (by simp [idle]), microSteps, if_neg not_short, Nat.add_assoc, Nat.add_assoc,
      Nat.add_sub_cancel_left]
    refine busyUntil_trans _ _ _ _ _ (busyUntil_startExpand_enterXor _ (script_latched _) (by simp) (err_latched _) (by simp)) ?_
    have transformed :=
      busyUntil_enterXor (expandKey ((s.setDone false).setCmdr 0b11#2)) (by simp [no_turn]) (by simp) (by simp [ok])
    rwa [expandKey_len] at transformed

/-- The host's write of a command's word to CMD, with nothing after it in the schedule, is one step. -/
theorem runFor_cmd_write (i : Instr) (s : State) (idle : s.phase = .idle) (k : Nat) :
    runFor (k + 1) (s.setScript [.regWrite 0x00#8 (encodeWord i).toNat]) =
      runFor k (acceptWord (encodeWord i) (s.setScript [])) :=
  runFor_succ k _ _ (step_of_cmd_write (s.setScript [.regWrite 0x00#8 (encodeWord i).toNat]) (encodeWord i) [] idle rfl)

theorem microSteps_pos (i : Instr) (s : State) : 1 ≤ microSteps i s := by
  cases i with
  | nop => exact Nat.le_refl 1
  | xfrm => simp only [microSteps]; omega
  | kexp => simp only [microSteps]; split <;> omega
  | run => simp only [microSteps]; split <;> omega

/-- Settles O34: behind the accept step the block is busy until the state of the whole command, which has DONE or the fault
set. -/
theorem busyUntilLastMicroStep : Obligations.BusyUntilLastMicroStep := by
  intro i s ready
  have ready' : Ready (s.setScript []) := ready
  obtain ⟨t, whole, busy, run⟩ := busyUntil_acceptWord i (s.setScript []) ready' rfl
  have positive := microSteps_pos i s
  refine ⟨fun k first before_last => ?_, t, ?_, ?_⟩
  · obtain ⟨j, rfl⟩ := Nat.exists_eq_add_of_le' first
    rw [runFor_cmd_write i s ready.1 j]
    exact busy j (Nat.lt_sub_of_add_lt before_last)
  · obtain ⟨j, steps⟩ := Nat.exists_eq_add_of_le' positive
    rw [steps, runFor_cmd_write i s ready.1 j, ← run]
    congr 1
    exact (Nat.eq_sub_of_add_eq steps.symm)
  · exact (exec_end i _ t ready' whole).2.1

end Sys2Proof.Machine

/-! Schedules in which the host lets the block step and reads STATUS (42_pipeline.md section 3, 43_microsteps.md section 3):
neither kind of turn disturbs the block. -/

namespace Sys2Proof.Machine

/-- The accept step does not look at the schedule or at the values read. -/
theorem acceptWord_withHost (w : Byte) (s : State) (ts : List Turn) (vs : List Nat) :
    acceptWord w (s.withHost ts vs) = (acceptWord w s).withHost ts vs := by
  have same_err : (s.withHost ts vs).err = s.err := rfl
  have same_check : tooShort ((s.withHost ts vs).setDone false) = tooShort (s.setDone false) := rfl
  unfold acceptWord
  simp only [same_err, same_check]
  split
  · rfl
  split
  · rfl
  split
  · rfl
  split
  · rfl
  split <;> rfl

/-- A run that ends, taken apart at its first step. -/
theorem runFor_succ_next (k : Nat) (s t : State) (run : runFor (k + 1) s = .next t) :
    ∃ u, step s = .next u ∧ runFor k u = .next t := by
  cases first : step s with
  | next u => exact ⟨u, rfl, (runFor_succ k s u first).symm.trans run⟩
  | fault r => simp [runFor_succ_fault k s r first] at run
  | refused r => simp [runFor_succ_refused k s r first] at run

/-- An idle block with no turn left stays as it is (R89). -/
theorem runFor_idle (k : Nat) (s : State) (idle : s.phase = .idle) (no_turn : s.script = []) : runFor k s = .next s := by
  induction k with
  | zero => exact runFor_zero s
  | succ k ih => rw [runFor_succ k s s ((step_nil s no_turn).trans (blockStep_idle s idle)), ih]

/-- Turns that only watch take the block as far as as many steps of its own with no turn left; each read of STATUS adds a value to
those the host has seen. -/
theorem runFor_watched (turns : List Turn) (watched : ∀ t ∈ turns, onlyWatches t) (rest : List Turn) (vs : List Nat)
    (s t : State) (no_turn : s.script = []) (run : runFor (turns.count .block) s = .next t) :
    ∃ new, runFor turns.length (s.withHost (turns ++ rest) vs) = .next (t.withHost rest (new ++ vs)) ∧
      new.length + turns.count .block = turns.length := by
  induction turns generalizing s vs with
  | nil =>
    obtain rfl : s = t := Host.Outcome.next.inj run
    exact ⟨[], rfl, rfl⟩
  | cons turn turns ih =>
    have watched_rest : ∀ t ∈ turns, onlyWatches t := fun t ht => watched t (List.mem_cons_of_mem _ ht)
    obtain rfl | rfl := watched turn List.mem_cons_self
    · rw [List.count_cons_self] at run ⊢
      obtain ⟨u, first, run⟩ := runFor_succ_next _ s t run
      rw [step_nil s no_turn] at first
      have block_turn : step (s.withHost (.block :: (turns ++ rest)) vs) = .next (u.withHost (turns ++ rest) vs) := by
        rw [step_cons _ .block (turns ++ rest) rfl]
        exact blockStep_withHost s u (turns ++ rest) vs first
      obtain ⟨new, run_rest, count⟩ := ih watched_rest vs u ((blockStep_host s u first).1.trans no_turn) run
      exact ⟨new, (runFor_succ _ _ _ block_turn).trans run_rest, congrArg (· + 1) count⟩
    · rw [List.count_cons_of_ne (by decide)] at run ⊢
      have status_read := step_of_status_read (s.withHost (.regRead 0x01#8 :: (turns ++ rest)) vs) (turns ++ rest) rfl
      obtain ⟨new, run_rest, count⟩ := ih watched_rest ((statusWord s).toNat :: vs) s no_turn run
      refine ⟨new ++ [(statusWord s).toNat], (runFor_succ _ _ _ status_read).trans ?_, ?_⟩
      · rw [List.append_assoc]
        exact run_rest
      · simp only [List.length_append, List.length_cons, List.length_nil]
        omega

/-- The same for block turns only, which add no value read. -/
theorem runFor_blocks (k : Nat) (rest : List Turn) (vs : List Nat) (s t : State) (no_turn : s.script = [])
    (run : runFor k s = .next t) :
    runFor k (s.withHost (List.replicate k .block ++ rest) vs) = .next (t.withHost rest vs) := by
  have watched : ∀ t ∈ List.replicate k Turn.block, onlyWatches t := fun t ht => .inl (List.eq_of_mem_replicate ht)
  have alone : runFor ((List.replicate k Turn.block).count .block) s = .next t := by rwa [List.count_replicate_self]
  obtain ⟨new, run_turns, count⟩ := runFor_watched _ watched rest vs s t no_turn alone
  rw [List.count_replicate_self, List.length_replicate] at count
  obtain rfl : new = [] := List.length_eq_zero_iff.1 (by omega)
  rwa [List.length_replicate] at run_turns

/-- A command's word written to CMD, with more turns after it, is the accept step on the state those turns meet. -/
theorem step_cmd_write_withHost (i : Instr) (s : State) (turns : List Turn) (idle : s.phase = .idle) :
    step (s.setScript (.regWrite 0x00#8 (encodeWord i).toNat :: turns)) =
      .next ((acceptWord (encodeWord i) (s.setScript [])).withHost turns s.seen) := by
  rw [step_of_cmd_write (s.setScript (_ :: turns)) (encodeWord i) turns idle rfl, ← acceptWord_withHost]
  rfl

/-- The accept step adds no turn. -/
theorem acceptWord_script (w : Byte) (s : State) : (acceptWord w s).script = s.script := by
  have same : acceptWord w s = (acceptWord w s).withHost s.script s.seen := acceptWord_withHost w s s.script s.seen
  rw [same]
  rfl

/-- Settles O35: the block steps among the turns reach the end of the command as they would alone, and those beyond its end find
the block idle. -/
theorem microStepsReachWholeCommand : Obligations.MicroStepsReachWholeCommand := by
  intro i s turns ready watched enough
  have ready' : Ready (s.setScript []) := ready
  obtain ⟨t, whole, -, run⟩ := busyUntil_acceptWord i (s.setScript []) ready' rfl
  obtain ⟨idle, -, no_turn, same_seen⟩ := exec_end i _ t ready' whole
  have enough : microSteps i (s.setScript []) - 1 ≤ turns.count .block := Nat.sub_le_iff_le_add'.2 enough
  obtain ⟨extra, count⟩ := Nat.exists_eq_add_of_le enough
  have all_blocks : runFor (turns.count .block) (acceptWord (encodeWord i) (s.setScript [])) = .next t := by
    rw [count, runFor_add _ _ _ _ run, runFor_idle extra t idle no_turn]
  obtain ⟨new, run_turns, -⟩ := runFor_watched turns watched [] s.seen _ t (acceptWord_script _ _) all_blocks
  rw [List.append_nil] at run_turns
  refine ⟨t, t.withHost [] (new ++ s.seen), whole, ?_, ?_⟩
  · rw [Nat.add_comm, runFor_succ _ _ _ (step_cmd_write_withHost i s turns ready.1)]
    exact run_turns
  · calc { t.withHost [] (new ++ s.seen) with seen := s.seen } = t.withHost [] s.seen := rfl
      _ = t.withHost t.script t.seen := by rw [no_turn, same_seen]; rfl
      _ = t := rfl

/-- Phase XOR of an XFRM presented in `s`, after `k` of its steps (R86, R88). -/
def xfrmAfter (k : Nat) (s : State) : State :=
  (xorLoop k 0x800 (enterXor ((s.setDone false).setCmdr 0b10#2))).setIdx (BitVec.ofNat 32 (0x800 + k))

/-- Below `0x800 + k` the bytes of the region are transformed, and no other byte is (R113). -/
theorem xfrmAfter_bufByte (k : Nat) (s : State) (a : Nat) :
    (xfrmAfter k s).bufByte a = if 0x800 ≤ a ∧ a < 0x800 + k then xf (s.bufByte a) (s.keyAt a) else s.bufByte a := by
  simp [xfrmAfter, xorLoop_bufByte, enterXor]

/-- The write of XFRM's word to CMD of a ready block and `k` block turns lead there (R86, R88). -/
theorem runFor_xfrm_blocks (k : Nat) (s : State) (ready : Ready s) (hk : k ≤ s.len.toNat - 0x800) (rest : List Turn) :
    runFor (k + 1) (s.setScript (.regWrite 0x00#8 (encodeWord .xfrm).toNat :: (List.replicate k .block ++ rest))) =
      .next ((xfrmAfter k (s.setScript [])).withHost rest s.seen) := by
  have accept := step_cmd_write_withHost .xfrm s (List.replicate k .block ++ rest) ready.1
  rw [acceptWord_xor _ (s.setScript []) ready.2 rfl rfl rfl] at accept
  exact (runFor_succ k _ _ accept).trans (runFor_blocks k rest s.seen _ _ rfl (runFor_enterXor _ rfl k hk))

/-- Settles O37: the `k` block turns are the first `k` indices of the transform, and reset keeps BUF. -/
theorem resetMidTransformLeavesMixedImage : Obligations.ResetMidTransformLeavesMixedImage := by
  intro s k ready hk
  have stopped := runFor_xfrm_blocks k s ready hk [.reset]
  rw [Nat.add_comm 1 k]
  exact ⟨_, runFor_succ_last _ _ _ _ stopped (step_of_reset _ [] rfl), xfrmAfter_bufByte k (s.setScript []), rfl⟩

end Sys2Proof.Machine

/-! Command words (30_encoding.md) and the step that presents one. -/

namespace Sys2Proof.Machine

/-- Settles O1: each word is evaluated. -/
theorem commandWordsDecode : Obligations.CommandWordsDecode := by
  unfold Obligations.CommandWordsDecode
  decide

/-- A word with RSV = 0 is made of its two low bits (R44). -/
theorem eq_wordOfFields (w : Byte) (defined : rsvField w = 0#6) : w = wordOfFields (xfmField w) (expField w) := by
  revert w
  decide +kernel

/-- The form check of a word looks at RSV only (R44). -/
theorem wordWf_iff (w : Byte) : wordWf w = true ↔ rsvField w = 0#6 := by
  revert w
  decide +kernel

/-- A word with RSV = 0 decodes to the command whose word it is (R47). -/
theorem decodeWord_defined (w : Byte) (defined : rsvField w = 0#6) : ∃ i, decodeWord w = .ok i ∧ w = encodeWord i := by
  have word := eq_wordOfFields w defined
  cases xfm : xfmField w <;> cases exp : expField w <;> rw [xfm, exp] at word
  · exact ⟨.nop, by simp [decodeWord, defined, xfm, exp], word⟩
  · exact ⟨.kexp, by simp [decodeWord, defined, xfm, exp], word⟩
  · exact ⟨.xfrm, by simp [decodeWord, defined, xfm, exp], word⟩
  · exact ⟨.run, by simp [decodeWord, defined, xfm, exp], word⟩

theorem decodeWord_encodeWord (i : Instr) : decodeWord (encodeWord i) = .ok i := by
  cases i <;> decide

/-- Settles O2: RSV tells the words that decode from those that do not, and a word that decodes is the command's own. -/
theorem decodeEncodeAgree : Obligations.DecodeEncodeAgree := by
  refine ⟨fun i => ⟨decodeWord_encodeWord i, by cases i <;> decide, fun rest => ?_⟩, fun w i decodes => ?_, fun w => ?_,
    fun w reserved => ?_⟩
  · simp [decode, encode, decodeWord_encodeWord]
  · have defined : rsvField w = 0#6 := by
      by_contra reserved
      simp [decodeWord_reserved w reserved] at decodes
    obtain ⟨j, decodes_j, word⟩ := decodeWord_defined w defined
    rw [word, Except.ok.inj (decodes.symm.trans decodes_j)]
  · rw [wordWf_iff]
    refine ⟨fun ⟨i, decodes⟩ => ?_, fun defined => ?_⟩
    · by_contra reserved
      simp [decodeWord_reserved w reserved] at decodes
    · obtain ⟨i, decodes, -⟩ := decodeWord_defined w defined
      exact ⟨i, decodes⟩
  · exact decodeWord_reserved w fun defined => by simp [(wordWf_iff w).2 defined] at reserved

/-- Settles O3: the turn is the decoded command's meaning, and the word laid out in 8 bits is the command's own. -/
theorem stepRunsPresentedCommand : Obligations.StepRunsPresentedCommand := by
  have presented (s : State) (w : Byte) (rest : List Turn) (i : Instr) (next : s.script = .command w :: rest)
      (decodes : decodeWord w = .ok i) : step s = exec i (s.setScript rest) := by
    rw [step_cons s _ rest next, takeTurn, hostCommand, decodes]
  refine ⟨presented, fun s i => ?_⟩
  have word : BitVec.ofNat 8 ((encodeWord i).toNat % 2 ^ 8) = encodeWord i := by
    rw [Nat.mod_eq_of_lt (encodeWord i).isLt, BitVec.ofNat_toNat, BitVec.setWidth_eq]
  rw [State.withFetchWord, word]
  exact presented _ _ s.script i rfl (decodeWord_encodeWord i)

/-- Settles O4: every command is the presentation of a word, which only a busy block refuses. -/
theorem commandsRunExactlyWhenIdle : Obligations.CommandsRunExactlyWhenIdle := by
  refine ⟨fun i s idle => ?_, fun i s not_idle => ?_⟩
  · obtain ⟨act, -, e⟩ := exec_eq_present i s
    obtain ⟨is_busy, -⟩ | ⟨-, -, next⟩ | ⟨-, -, next⟩ := present_cases act s
    · exact absurd idle ((busy_eq_true_iff s).1 is_busy)
    · exact ⟨_, e.trans next⟩
    · exact ⟨_, e.trans next⟩
  · obtain ⟨act, -, e⟩ := exec_eq_present i s
    have is_busy : busy s = true := (busy_eq_true_iff s).2 not_idle
    rw [e, present, if_pos is_busy]

/-- Settles O46: after reset LEN is 0, too short for the two commands that expand, and leaves XFRM no index. -/
theorem firstCommandAfterReset : Obligations.FirstCommandAfterReset := by
  have ready : Ready State.reset := ⟨rfl, rfl⟩
  have short : State.reset.len.toNat < 0x410 := by decide
  have presented := stepRunsPresentedCommand.2 State.reset
  refine ⟨⟨_, (presented .nop).trans (exec_nop_of_ready _ ready), rfl⟩,
    ⟨_, (presented .kexp).trans (exec_expanding_of_short _ (.inl rfl) _ ready short), rfl⟩, ?_,
    ⟨_, (presented .run).trans (exec_expanding_of_short _ (.inr rfl) _ ready short), rfl⟩⟩
  have xfrm := (presented .xfrm).trans (exec_xfrm_eq _ ready)
  rw [transformImage_of_empty_region _ (by decide)] at xfrm
  exact ⟨_, xfrm, rfl, rfl, rfl⟩

end Sys2Proof.Machine

/-! The rotations (40_key_expander.md section 1) and the key index (41_selective_xor.md section 3). -/

namespace Sys2Proof.Machine

theorem ror8_rol8 (v : Byte) : ror8 (rol8 v) = v := by
  refine BitVec.eq_of_getLsbD_eq fun j hj => ?_
  rw [ror8_getLsbD _ j hj]
  split
  · next last => rw [rol8_getLsbD _ 0 (by decide), if_pos rfl, last]
  · rw [rol8_getLsbD _ (j + 1) (by omega), if_neg (Nat.succ_ne_zero j), Nat.add_sub_cancel]

theorem rol8_ror8 (v : Byte) : rol8 (ror8 v) = v := by
  refine BitVec.eq_of_getLsbD_eq fun j hj => ?_
  rw [rol8_getLsbD _ j hj]
  split
  · next first => rw [ror8_getLsbD _ 7 (by decide), if_pos rfl, first]
  · rw [ror8_getLsbD _ (j - 1) (by omega), if_neg (by omega), Nat.sub_add_cancel (by omega)]

/-- `n` left rotations take bit `j` from `n` places below it, round the byte. -/
theorem rol8_iterate_getLsbD (n : Nat) (v : Byte) (j : Nat) (hj : j < 8) :
    (rol8^[n] v).getLsbD j = v.getLsbD ((j + 7 * n) % 8) := by
  induction n generalizing j with
  | zero => simp [Nat.mod_eq_of_lt hj]
  | succ n ih =>
    rw [Function.iterate_succ_apply', rol8_getLsbD _ j hj]
    split
    · rw [ih 7 (by decide)]
      congr 1
      omega
    · rw [ih (j - 1) (by omega)]
      congr 1
      omega

/-- Eight left rotations bring every bit home. -/
theorem rol8_iterate_eight (v : Byte) : rol8^[8] v = v := by
  refine BitVec.eq_of_getLsbD_eq fun j hj => ?_
  rw [rol8_iterate_getLsbD 8 v j hj]
  congr 1
  omega

/-- Right rotations undo as many of eight left ones. -/
theorem ror8_iterate_of_le (n : Nat) (hn : n ≤ 8) (v : Byte) : ror8^[n] v = rol8^[8 - n] v := by
  have undo : Function.LeftInverse ror8^[n] rol8^[n] := Function.LeftInverse.iterate ror8_rol8 n
  calc ror8^[n] v = ror8^[n] (rol8^[n] (rol8^[8 - n] v)) := by
        rw [← Function.iterate_add_apply, Nat.add_sub_cancel' hn, rol8_iterate_eight]
    _ = rol8^[8 - n] v := undo _

theorem rol8_eq_self_iff (v : Byte) : rol8 v = v ↔ v = 0x00#8 ∨ v = 0xFF#8 := by
  revert v
  decide +kernel

/-- The two rotations fix the same bytes, being inverse. -/
theorem ror8_eq_self_iff (v : Byte) : ror8 v = v ↔ rol8 v = v := by
  refine ⟨fun fixed => ?_, fun fixed => ?_⟩
  · rw [← fixed, rol8_ror8, fixed]
  · rw [← fixed, ror8_rol8, fixed]

/-- Settles O12: the orders and the fixed points of one rotation are those of its inverse. -/
theorem rotationsAreInverse : Obligations.RotationsAreInverse := by
  intro v
  refine ⟨ror8_rol8 v, rol8_ror8 v, rol8_iterate_eight v, ?_, fun n hn => ?_, rol8_eq_self_iff v, ?_⟩
  · rw [ror8_iterate_of_le 8 (Nat.le_refl 8)]
    rfl
  · rw [ror8_iterate_of_le (8 - n) (Nat.sub_le 8 n), Nat.sub_sub_self hn]
  · rw [ror8_eq_self_iff, rol8_eq_self_iff]

/-- Settles O18: the low 7 bits of a number are its remainder by 128, and 0x800 is a multiple of 128. -/
theorem keyIndexIsLowSevenBits : Obligations.KeyIndexIsLowSevenBits := by
  intro s i m
  have low_bits : (i.extractLsb 6 0).toNat = i.toNat % 128 := by
    simp [BitVec.extractLsb_toNat]
  have number : (0x800 + m) % 128 = m % 128 % 128 := by omega
  exact ⟨by simp [State.keyAt, low_bits], by simp only [State.keyAt, number]⟩

end Sys2Proof.Machine

/-! Canonical memories (20_memory.md section 4, log 3). -/

namespace Sys2Proof.Machine

theorem Memory.wf_tail (c : Host.Cell) (rest : Memory) (h : Memory.wf (c :: rest) = true) : rest.wf = true := by
  simp only [Memory.wf, Bool.and_eq_true] at h
  exact h.2

/-- In a canonical memory no offset below the first entry is written. -/
theorem Memory.read?_below_head (c : Host.Cell) (rest : Memory) (h : Memory.wf (c :: rest) = true) (x : Nat) (below : x < c.1) :
    Memory.read? (c :: rest) x = none := by
  rw [Memory.read?, if_neg (by omega), Memory.read?_tail_none c rest h x (by omega)]

theorem Memory.read?_head (c : Host.Cell) (rest : Memory) : Memory.read? (c :: rest) c.1 = some c.2 := by
  rw [Memory.read?, if_pos rfl]

/-- Two canonical memories that read alike have the same first entry: neither starts below the other. -/
theorem Memory.head_eq_of_read? (c d : Host.Cell) (m n : Memory) (hm : Memory.wf (c :: m) = true) (hn : Memory.wf (d :: n) = true)
    (same : ∀ a, Memory.read? (c :: m) a = Memory.read? (d :: n) a) : c = d := by
  have not_below : ¬ c.1 < d.1 := fun below => by
    simpa [Memory.read?_head, Memory.read?_below_head d n hn c.1 below] using same c.1
  have not_above : ¬ d.1 < c.1 := fun above => by
    simpa [Memory.read?_head, Memory.read?_below_head c m hm d.1 above] using same d.1
  have offset : c.1 = d.1 := by omega
  have value := same c.1
  rw [Memory.read?_head, offset, Memory.read?_head] at value
  exact Prod.ext offset (Option.some.inj value)

/-- Settles O44: by induction on the entries; the first entries are equal, and behind them the rests read alike. -/
theorem canonicalMemoriesEqual : Obligations.CanonicalMemoriesEqual := by
  intro m
  induction m with
  | nil =>
    intro n _ _ same
    cases n with
    | nil => rfl
    | cons d n => simpa [Memory.read?_head, Memory.read?] using same d.1
  | cons c m ih =>
    intro n hm hn same
    cases n with
    | nil => simpa [Memory.read?_head, Memory.read?] using same c.1
    | cons d n =>
      obtain rfl := Memory.head_eq_of_read? c d m n hm hn same
      have same_rest (a : Nat) : Memory.read? m a = Memory.read? n a := by
        by_cases written_first : c.1 = a
        · rw [Memory.read?_tail_none c m hm a (Nat.le_of_eq written_first.symm),
            Memory.read?_tail_none c n hn a (Nat.le_of_eq written_first.symm)]
        · simpa [Memory.read?, written_first] using same a
      rw [ih n (Memory.wf_tail c m hm) (Memory.wf_tail c n hn) same_rest]

end Sys2Proof.Machine

/-! What changes LEN, CHG and BUF (10_state.md section 4, 20_memory.md sections 5 and 8): every agent of a step is followed, the
block through its two kinds of step, a word through the command it names. -/

namespace Sys2Proof.Machine

/-- A host command that answers next is ignored, faults, or is a command in a ready block (R48, R84, R102). -/
theorem hostCommand_next (w : Byte) (s t : State) (h : hostCommand exec w s = .next t) :
    t = s ∨ (∃ c, t = raiseFault c s) ∨ ∃ i, w = encodeWord i ∧ Ready s ∧ exec i s = .next t := by
  have idle := hostCommand_next_idle w s t h
  by_cases ok : s.err = 0#4
  · obtain ⟨i, word, e⟩ | ⟨-, e⟩ := hostCommand_cases exec w s
    · exact .inr (.inr ⟨i, word, ⟨idle, ok⟩, e.symm.trans h⟩)
    · obtain ⟨-, ⟨fault, -⟩ | ⟨-, rfl⟩⟩ := present_next _ s t (e.symm.trans h)
      · exact absurd ok fault
      · exact .inr (.inl ⟨illegalCommand, rfl⟩)
  · exact .inl (Host.Outcome.next.inj ((hostCommand_faulted w s idle ok).symm.trans h)).symm

/-! LEN. -/

@[simp] theorem xorMicro_len (s : State) : (xorMicro s).len = s.len := by
  obtain below | at_end := Nat.lt_or_ge s.idx.toNat s.len.toNat
  · simp [xorMicro_of_lt s below]
  · simp [xorMicro_of_le s at_end, complete]

theorem blockStep_len (s t : State) (h : blockStep s = .next t) : t.len = s.len := by
  obtain ⟨-, e⟩ | ⟨-, -, e⟩ | ⟨-, -, -, e⟩ | ⟨-, e⟩ := blockStep_cases s <;> rw [e] at h <;> cases h
  · rfl
  · exact expandMicro_len s
  · exact xorMicro_len s

theorem hostCommand_len (w : Byte) (s t : State) (h : hostCommand exec w s = .next t) : t.len = s.len := by
  obtain rfl | ⟨c, rfl⟩ | ⟨i, -, ready, whole⟩ := hostCommand_next w s t h
  · rfl
  · rfl
  · obtain ⟨-, e⟩ | ⟨-, -, e⟩ | ⟨-, -, e⟩ | ⟨-, e⟩ | ⟨-, -, e⟩ := exec_cases i s ready <;>
      obtain rfl := Host.Outcome.next.inj (whole.symm.trans e) <;>
      simp [raiseFault]

@[simp] theorem acceptWord_len (w : Byte) (s : State) : (acceptWord w s).len = s.len := by
  obtain ⟨-, e⟩ | ⟨-, -, e⟩ | ⟨-, -, -, -, e⟩ | ⟨-, -, -, -, e⟩ | ⟨-, -, -, -, e⟩ | ⟨-, -, -, -, e⟩ :=
    acceptWord_cases w s <;>
    simp [e, raiseFault, enterXor]

/-- Settles O49: the block, a word and the other accesses keep LEN; what remains is the write of LEN and reset. -/
theorem lenChangesOnlyByHostOrReset : Obligations.LenChangesOnlyByHostOrReset := by
  intro s t h changed
  obtain ⟨ts, hb, -⟩ | ⟨w, rest, -, hc⟩ | ⟨n, rest, v, -, rfl⟩ | ⟨n, v, rest, next, hw⟩ | ⟨a, rest, v, -, rfl⟩ |
    ⟨a, v, rest, -, hp⟩ | ⟨rest, -, -, rfl⟩ | ⟨rest, next, rfl⟩ := step_next s t h
  · exact absurd (blockStep_len _ t hb) changed
  · exact absurd (hostCommand_len w _ t hc) changed
  · exact absurd rfl changed
  · obtain ⟨idle, ⟨-, -, rfl⟩ | ⟨rfl, in_range, rfl⟩ | ⟨-, -, rfl⟩⟩ := hostRegWrite_next n v _ t hw
    · exact absurd (acceptWord_len _ _) changed
    · exact .inl ⟨v, rest, idle, next, (BitVec.toNat_ofNat v 32).trans (Nat.mod_eq_of_lt in_range)⟩
    · exact absurd rfl changed
  · exact absurd rfl changed
  · obtain ⟨-, -, rfl⟩ := hostPoke_next a v _ t hp
    exact absurd rfl changed
  · exact absurd rfl changed
  · exact .inr ⟨rest, next, rfl⟩

/-! CHG. -/

/-- An EXPAND step moves CHG only where it starts the transform (R87). -/
theorem expandMicro_chg (s : State) : (expandMicro s).chg = s.chg ∨ (expandMicro s).phase = .xor := by
  obtain ⟨-, e⟩ | ⟨-, e⟩ | ⟨-, e⟩ := expandMicro_cases s <;> simp [e, enterXor, complete]

theorem blockStep_chg (s t : State) (h : blockStep s = .next t) :
    t.chg = s.chg ∨ s.phase = .xor ∨ s.phase = .expand ∧ t.phase = .xor := by
  obtain ⟨-, e⟩ | ⟨expanding, -, e⟩ | ⟨xoring, -, -, e⟩ | ⟨-, e⟩ := blockStep_cases s <;> rw [e] at h <;> cases h
  · exact .inl rfl
  · exact (expandMicro_chg s).imp_right fun starts => .inr ⟨expanding, starts⟩
  · exact .inr (.inl xoring)

/-- Of the words only those of XFRM and, on a long enough image, RUN move CHG, in a ready block (R68, R79). -/
theorem hostCommand_chg (w : Byte) (s t : State) (h : hostCommand exec w s = .next t) :
    t.chg = s.chg ∨ Ready s ∧ (w = 0x02#8 ∨ w = 0x03#8 ∧ 0x410 ≤ s.len.toNat) := by
  obtain rfl | ⟨c, rfl⟩ | ⟨i, word, ready, whole⟩ := hostCommand_next w s t h
  · exact .inl rfl
  · exact .inl rfl
  · obtain ⟨-, e⟩ | ⟨-, -, e⟩ | ⟨-, -, e⟩ | ⟨rfl, -⟩ | ⟨rfl, long, -⟩ := exec_cases i s ready
    · obtain rfl := Host.Outcome.next.inj (whole.symm.trans e)
      exact .inl rfl
    · obtain rfl := Host.Outcome.next.inj (whole.symm.trans e)
      exact .inl rfl
    · obtain rfl := Host.Outcome.next.inj (whole.symm.trans e)
      exact .inl (by simp)
    · exact .inr ⟨ready, .inl word⟩
    · exact .inr ⟨ready, .inr ⟨word, long⟩⟩

/-- Of the lines of the accept step only the one of XFRM moves CHG (R86 line 7). -/
theorem acceptWord_chg (w : Byte) (s : State) :
    (acceptWord w s).chg = s.chg ∨ s.err = 0#4 ∧ rsvField w = 0#6 ∧ expField w = false ∧ xfmField w = true := by
  obtain ⟨-, e⟩ | ⟨-, -, e⟩ | ⟨-, -, -, -, e⟩ | ⟨-, -, -, -, e⟩ | ⟨ok, defined, no_exp, xfm, -⟩ | ⟨-, -, -, -, e⟩ :=
    acceptWord_cases w s
  case inr.inr.inr.inr.inl => exact .inr ⟨ok, defined, no_exp, xfm⟩
  all_goals exact .inl (by simp [e, raiseFault])

/-- Settles O50: the block moves CHG in phase XOR or where it starts it; a word by a transform, whole or by its accept step; and
no other access but reset moves it. -/
theorem chgChangesOnlyByTransformOrReset : Obligations.ChgChangesOnlyByTransformOrReset := by
  intro s t h changed
  obtain ⟨ts, hb, -⟩ | ⟨w, rest, next, hc⟩ | ⟨n, rest, v, -, rfl⟩ | ⟨n, v, rest, next, hw⟩ | ⟨a, rest, v, -, rfl⟩ |
    ⟨a, v, rest, -, hp⟩ | ⟨rest, -, -, rfl⟩ | ⟨rest, next, -⟩ := step_next s t h
  · obtain kept | xoring | starts := blockStep_chg _ t hb
    · exact absurd kept changed
    · exact .inl xoring
    · exact .inr (.inl starts)
  · obtain kept | ⟨⟨idle, ok⟩, rfl | ⟨rfl, long⟩⟩ := hostCommand_chg w _ t hc
    · exact absurd kept changed
    · exact .inr (.inr (.inl ⟨idle, ok, rest, .inl next⟩))
    · exact .inr (.inr (.inl ⟨idle, ok, rest, .inr (.inl ⟨next, long⟩)⟩))
  · exact absurd rfl changed
  · obtain ⟨idle, ⟨rfl, in_range, rfl⟩ | ⟨-, -, rfl⟩ | ⟨-, -, rfl⟩⟩ := hostRegWrite_next n v _ t hw
    · obtain kept | ⟨ok, defined, no_exp, xfm⟩ := acceptWord_chg (BitVec.ofNat 8 v) (s.setScript rest)
      · exact absurd kept changed
      · have word := eq_wordOfFields _ defined
        rw [no_exp, xfm] at word
        obtain rfl : v = 0x02 := by
          have value := congrArg BitVec.toNat word
          rwa [BitVec.toNat_ofNat, Nat.mod_eq_of_lt in_range] at value
        exact .inr (.inr (.inl ⟨idle, ok, rest, .inr (.inr next)⟩))
    · exact absurd rfl changed
    · exact absurd rfl changed
  · exact absurd rfl changed
  · obtain ⟨-, -, rfl⟩ := hostPoke_next a v _ t hp
    exact absurd rfl changed
  · exact absurd rfl changed
  · exact .inr (.inr (.inr ⟨rest, next⟩))

/-! BUF. -/

/-- An XOR step changes no byte outside the transform region (R88). -/
theorem xorMicro_bufByte_outside (s : State) (from_skip : 0x800 ≤ s.idx.toNat) (a : Nat)
    (outside : ¬ (0x800 ≤ a ∧ a < s.len.toNat)) : (xorMicro s).bufByte a = s.bufByte a := by
  obtain below | at_end := Nat.lt_or_ge s.idx.toNat s.len.toNat
  · rw [xorMicro_of_lt s below, State.setIdx_bufByte, xorAt_bufByte, if_neg (by omega)]
  · rw [xorMicro_of_le s at_end]
    rfl

theorem blockStep_bufByte_outside (s t : State) (h : blockStep s = .next t) (a : Nat)
    (outside : ¬ (0x800 ≤ a ∧ a < s.len.toNat)) : t.bufByte a = s.bufByte a := by
  obtain ⟨-, e⟩ | ⟨-, -, e⟩ | ⟨-, from_skip, -, e⟩ | ⟨-, e⟩ := blockStep_cases s <;> rw [e] at h <;> cases h
  · rfl
  · rw [State.bufByte, expandMicro_buf, State.bufByte]
  · exact xorMicro_bufByte_outside s from_skip a outside

/-- No word changes a byte outside the transform region (R66, R79). -/
theorem hostCommand_bufByte_outside (w : Byte) (s t : State) (h : hostCommand exec w s = .next t) (a : Nat)
    (outside : ¬ (0x800 ≤ a ∧ a < s.len.toNat)) : t.bufByte a = s.bufByte a := by
  obtain rfl | ⟨c, rfl⟩ | ⟨i, -, ready, whole⟩ := hostCommand_next w s t h
  · rfl
  · rfl
  · obtain ⟨-, e⟩ | ⟨-, -, e⟩ | ⟨-, -, e⟩ | ⟨-, e⟩ | ⟨-, -, e⟩ := exec_cases i s ready <;>
      obtain rfl := Host.Outcome.next.inj (whole.symm.trans e)
    · rfl
    · rfl
    · simp
    · simp [transformImage_bufByte, outside]
    · simp [transformImage_bufByte, outside]

/-- The accept step makes no access to BUF (R86). -/
@[simp] theorem acceptWord_buf (w : Byte) (s : State) : (acceptWord w s).buf = s.buf := by
  obtain ⟨-, e⟩ | ⟨-, -, e⟩ | ⟨-, -, -, -, e⟩ | ⟨-, -, -, -, e⟩ | ⟨-, -, -, -, e⟩ | ⟨-, -, -, -, e⟩ :=
    acceptWord_cases w s <;>
    simp [e, raiseFault, enterXor]

/-- Settles O51: the block's steps and the commands stay inside the region; of the host's accesses only the write to BUF changes
a byte, the one at its own offset. -/
theorem blockWritesInsideTransformRegionOnly : Obligations.BlockWritesInsideTransformRegionOnly := by
  intro s t x h changed
  obtain inside | outside := Decidable.em (0x800 ≤ x ∧ x < s.len.toNat)
  · exact .inl inside
  obtain ⟨ts, hb, -⟩ | ⟨w, rest, -, hc⟩ | ⟨n, rest, v, -, rfl⟩ | ⟨n, v, rest, -, hw⟩ | ⟨a, rest, v, -, rfl⟩ |
    ⟨a, v, rest, next, hp⟩ | ⟨rest, -, -, rfl⟩ | ⟨rest, -, rfl⟩ := step_next s t h
  · exact absurd (blockStep_bufByte_outside _ t hb x outside) changed
  · exact absurd (hostCommand_bufByte_outside w _ t hc x outside) changed
  · exact absurd rfl changed
  · obtain ⟨-, ⟨-, -, rfl⟩ | ⟨-, -, rfl⟩ | ⟨-, -, rfl⟩⟩ := hostRegWrite_next n v _ t hw
    · exact absurd (by simp [State.bufByte]) changed
    · exact absurd rfl changed
    · exact absurd rfl changed
  · exact absurd rfl changed
  · obtain ⟨idle, -, rfl⟩ := hostPoke_next a v _ t hp
    have stored := (s.setScript rest).setBuf_write_bufByte a x v
    by_cases same : x = a
    · subst same
      exact .inr ⟨idle, v, rest, next, stored.trans (if_pos rfl)⟩
    · exact absurd (stored.trans (if_neg same)) changed
  · exact absurd rfl changed
  · exact absurd rfl changed

end Sys2Proof.Machine
